-- ==== Sys2Proof/Word.lean ====
section
/-! DEFINITION. The word types of the core and their plainest arithmetic (spec/00_scope.md rules R7 and R8). -/

namespace Sys2Proof

/-- A general register, a timer, a byte of memory: 8 bits (rules R21, R26, R27, R32). -/
abbrev Byte := BitVec 8

/-- The opcode, pc, I and a stack entry: 16 bits of storage (rules R23, R24, R25, R90). -/
abbrev Word := BitVec 16

/-- The N field: sprite height or function code, 4 bits (rule R91). -/
abbrev Nibble := BitVec 4

/-- The X and Y fields: the number of a general register, 4 bits, so always 0..15 (rules R21, R91). -/
abbrev RegIx := BitVec 4

/-- The NNN field: a 12-bit address immediate (rule R91). -/
abbrev Addr12 := BitVec 12

/-- The number of bytes of memory, addresses 0x000..0xFFF (rule R5, MEM_SIZE). -/
abbrev memSize : Nat := 4096

/-- The address of the first program byte and of the first fetch (rule R5, PROG_BASE). -/
abbrev progBase : Nat := 0x200

end Sys2Proof
end

