-- ==== Sys2Proof/Config.lean ====
section
/-! DEFINITION. What one realisation of the core fixes: the parameters the spec leaves open
(spec/00_scope.md rule R6), as ONE record of plain data, the free value of CXNN, the events
of the agents besides the executor, and the free order of turns.

The parameters are carried in a field of State (log entry 1), so that a statement about every state is a
statement about every value of every parameter, and a state with given parameters can still be evaluated. -/

namespace Sys2Proof

/-- FAMILY0_DECODE: how 0x0NE0 and 0x0NEE with N other than 0 decode (rules R6, R97). -/
inductive Family0Decode where
  /-- Only the whole words 0x00E0 and 0x00EE are CLS and RET (the spec's default). -/
  | exact
  /-- The low byte alone decides: 0xE0 is CLS, 0xEE is RET. -/
  | lowByte
deriving DecidableEq, Repr

/-- LOWNIB_59: what 5XYn and 9XYn with n other than 0 do (rules R6, R98). -/
inductive LowNib59 where
  /-- Executed as 5XY0 and 9XY0 (the spec's default). -/
  | ignore
  /-- Only the fetch increment happens. -/
  | nop
  /-- UnimplementedOpcode is raised. -/
  | fault
deriving DecidableEq, Repr

/-- TIMER_ZERO_POLICY: what a tick does to a timer that stands at 0 (rules R6, R325). -/
inductive TimerZeroPolicy where
  /-- The timer is loaded with its restart value (the spec's default). -/
  | restart
  /-- The timer stays at 0. -/
  | hold
deriving DecidableEq, Repr

/-- The two parameters that decoding reads. -/
structure DecodeParams where
  family0  : Family0Decode
  lowNib59 : LowNib59
deriving DecidableEq, Repr

/-- The parameters of rule R6, each under its own name. -/
structure Params where
  /-- FONT_BASE: the address of glyph 0. -/
  fontBase   : Nat
  /-- FONT_GLYPHS: how many glyphs of five bytes the font table holds. -/
  fontGlyphs : Nat
  /-- FONT_DATA: the bytes of the font table. -/
  fontData   : List Byte
  /-- STACK_DEPTH: the most entries the stack holds, `none` for UNBOUNDED. -/
  stackDepth : Option Nat
  /-- TIMER_ZERO_POLICY. -/
  timerZero  : TimerZeroPolicy
  /-- R_DT: what a tick at 0 loads into the delay timer. -/
  restartDT  : Byte
  /-- R_ST: what a tick at 0 loads into the sound timer. -/
  restartST  : Byte
  /-- DT0: the delay timer after reset. -/
  initDT     : Byte
  /-- ST0: the sound timer after reset. -/
  initST     : Byte
  /-- MEM_RESIDUE: what reset leaves in the bytes it does not write, as address and byte pairs.
  The first pair of an address counts, and an address that no pair names holds 0x00. -/
  residue    : List Host.Cell
  /-- FAMILY0_DECODE and LOWNIB_59. -/
  decode     : DecodeParams
deriving DecidableEq, Repr

/-- The ranges that rule R6 gives the parameters. -/
def Params.wf (p : Params) : Bool :=
  decide (1 ≤ p.fontGlyphs) && decide (p.fontGlyphs ≤ 102) && decide (p.fontData.length = 5 * p.fontGlyphs)
    && decide (p.fontBase + 5 * p.fontGlyphs ≤ progBase)

/-- RNG: the byte of the n-th CXNN draw, a free value: it has no body, so nothing in Lean can find out what it
is, and what is proved holds for every sequence of draws (rule R191, decision D21, log entry 5). -/
opaque Config.randomByte : Nat → Byte

/-- What an agent other than the executor does to the core in one atomic transition: a tick of one of the two timer
processes, or a call of the host (rules R320, R325 and R330). -/
inductive Event where
  /-- One tick of the delay-timer process. -/
  | delayTick
  /-- One tick of the sound-timer process. -/
  | soundTick
  /-- set_key_pressed(k). -/
  | setKeyPressed (k : Nat)
  /-- set_key_released(k). -/
  | setKeyReleased (k : Nat)
  /-- read_pixel(x, y). -/
  | readPixel (x y : Nat)
  /-- take_dirty_flag(). -/
  | takeDirtyFlag
  /-- reset(program_bytes); `none` is an image that could not be read (rule R351). -/
  | reset (image : Option (List Byte))
deriving DecidableEq, Repr

/-- Whose turn the n-th free turn is, `none` for the executor: a free value without a body, so what is proved of a run
whose turns are free holds for every order of the agents (rules R320 and R326, decision D27, log entry 6). -/
opaque Config.freeTurn : Nat → Option Event

end Sys2Proof
end

