-- ==== Sys2Proof/Machine/Defaults.lean ====
section
/-! DEFINITION. The parameter values of the machine that State.reset stands for: the "default" column of
spec/00_scope.md rule R6 where it gives a value, and a value named in the assumption log where it says OPEN. -/

namespace Sys2Proof

/-- FAMILY0_DECODE = EXACT and LOWNIB_59 = IGNORE (rule R6, decisions D12 and D13). -/
def DecodeParams.default : DecodeParams := { family0 := .exact, lowNib59 := .ignore }

/-- The default FONT_DATA: glyphs 0 to 7 of the table of rule R33. -/
def defaultFontLow : List Byte :=
  [0xF0#8, 0x90#8, 0x90#8, 0x90#8, 0xF0#8] ++ [0x20#8, 0x60#8, 0x20#8, 0x20#8, 0x70#8]
    ++ [0xF0#8, 0x10#8, 0xF0#8, 0x80#8, 0xF0#8] ++ [0xF0#8, 0x10#8, 0xF0#8, 0x10#8, 0xF0#8]
    ++ [0x90#8, 0x90#8, 0xF0#8, 0x10#8, 0x10#8] ++ [0xF0#8, 0x80#8, 0xF0#8, 0x10#8, 0xF0#8]
    ++ [0xF0#8, 0x80#8, 0xF0#8, 0x90#8, 0xF0#8] ++ [0xF0#8, 0x10#8, 0x20#8, 0x40#8, 0x40#8]

/-- The default FONT_DATA: glyphs 8 to F of the table of rule R33. -/
def defaultFontHigh : List Byte :=
  [0xF0#8, 0x90#8, 0xF0#8, 0x90#8, 0xF0#8] ++ [0xF0#8, 0x90#8, 0xF0#8, 0x10#8, 0xF0#8]
    ++ [0xF0#8, 0x90#8, 0xF0#8, 0x90#8, 0x90#8] ++ [0xE0#8, 0x90#8, 0xE0#8, 0x90#8, 0xE0#8]
    ++ [0xF0#8, 0x80#8, 0x80#8, 0x80#8, 0xF0#8] ++ [0xE0#8, 0x90#8, 0x90#8, 0x90#8, 0xE0#8]
    ++ [0xF0#8, 0x80#8, 0xF0#8, 0x80#8, 0xF0#8] ++ [0xF0#8, 0x80#8, 0xF0#8, 0x80#8, 0x80#8]

/-- The defaults of rule R6. DESIGN CHOICE where rule R6 says OPEN: FONT_BASE is 0x000 (log entry 2), R_DT, R_ST,
DT0 and ST0 are 0x00 (log entry 3), MEM_RESIDUE is 0x00 everywhere (log entry 4). -/
def Params.default : Params :=
  { fontBase := 0x000, fontGlyphs := 16, fontData := defaultFontLow ++ defaultFontHigh
    stackDepth := none, timerZero := .restart
    restartDT := 0x00#8, restartST := 0x00#8, initDT := 0x00#8, initST := 0x00#8
    residue := [], decode := DecodeParams.default }

end Sys2Proof
end

