-- ==== Sys2Proof/Syntax.lean ====
section
/-! DEFINITION. The 35 instructions, one constructor for each row of spec/opcode_table.json, in the table's
order (spec/30_encoding.md rule R95). A field that an instruction ignores (rule R99) is kept, so that no bit of
an opcode is lost: Y of SHR and SHL, and the low nibble n of 5XYn and 9XYn. -/

namespace Sys2Proof

inductive Instr where
  /-- 0NNN, SYS nnn (rule R140). -/
  | sys (nnn : Addr12)
  /-- 00E0, CLS (rule R250). -/
  | cls
  /-- 00EE, RET (rule R141). -/
  | ret
  /-- 1NNN, JP nnn (rule R142). -/
  | jp (nnn : Addr12)
  /-- 2NNN, CALL nnn (rule R143). -/
  | call (nnn : Addr12)
  /-- 3XNN, SE Vx, nn (rule R161). -/
  | seImm (x : RegIx) (nn : Byte)
  /-- 4XNN, SNE Vx, nn (rule R162). -/
  | sneImm (x : RegIx) (nn : Byte)
  /-- 5XY0, SE Vx, Vy; n is the low nibble, 0 in the canonical form (rules R98, R163). -/
  | seReg (x y : RegIx) (n : Nibble)
  /-- 6XNN, LD Vx, nn (rule R180). -/
  | ldImm (x : RegIx) (nn : Byte)
  /-- 7XNN, ADD Vx, nn (rule R181). -/
  | addImm (x : RegIx) (nn : Byte)
  /-- 8XY0, LD Vx, Vy (rule R182). -/
  | ldReg (x y : RegIx)
  /-- 8XY1, OR Vx, Vy (rule R183). -/
  | orReg (x y : RegIx)
  /-- 8XY2, AND Vx, Vy (rule R184). -/
  | andReg (x y : RegIx)
  /-- 8XY3, XOR Vx, Vy (rule R185). -/
  | xorReg (x y : RegIx)
  /-- 8XY4, ADD Vx, Vy (rule R186). -/
  | addReg (x y : RegIx)
  /-- 8XY5, SUB Vx, Vy (rule R187). -/
  | sub (x y : RegIx)
  /-- 8XY6, SHR Vx; Y is ignored (rule R188). -/
  | shr (x y : RegIx)
  /-- 8XY7, SUBN Vx, Vy (rule R189). -/
  | subn (x y : RegIx)
  /-- 8XYE, SHL Vx; Y is ignored (rule R190). -/
  | shl (x y : RegIx)
  /-- 9XY0, SNE Vx, Vy; n is the low nibble, 0 in the canonical form (rules R98, R164). -/
  | sneReg (x y : RegIx) (n : Nibble)
  /-- ANNN, LD I, nnn (rule R220). -/
  | ldI (nnn : Addr12)
  /-- BNNN, JP V0, nnn (rule R144). -/
  | jpV0 (nnn : Addr12)
  /-- CXNN, RND Vx, nn (rule R191). -/
  | rnd (x : RegIx) (nn : Byte)
  /-- DXYN, DRW Vx, Vy, n (rule R251). -/
  | drw (x y : RegIx) (n : Nibble)
  /-- EX9E, SKP Vx (rule R270). -/
  | skp (x : RegIx)
  /-- EXA1, SKNP Vx (rule R271). -/
  | sknp (x : RegIx)
  /-- FX07, LD Vx, DT (rule R272). -/
  | ldVxDt (x : RegIx)
  /-- FX0A, LD Vx, K (rule R273). -/
  | ldVxK (x : RegIx)
  /-- FX15, LD DT, Vx (rule R274). -/
  | ldDtVx (x : RegIx)
  /-- FX18, LD ST, Vx (rule R275). -/
  | ldStVx (x : RegIx)
  /-- FX1E, ADD I, Vx (rule R221). -/
  | addI (x : RegIx)
  /-- FX29, LD F, Vx (rule R222). -/
  | ldF (x : RegIx)
  /-- FX33, LD B, Vx (rule R223). -/
  | ldBcd (x : RegIx)
  /-- FX55, LD [I], Vx (rule R224). -/
  | ldMemVx (x : RegIx)
  /-- FX65, LD Vx, [I] (rule R225). -/
  | ldVxMem (x : RegIx)
deriving DecidableEq, Repr

end Sys2Proof
end

