-- ==== Sys2Proof/WellFormed.lean ====
section
/-! DEFINITION. Which instructions are well formed: those that some opcode decodes to, under the two decoding
parameters. The widths of the fields are in their types, so three checks are left (spec/30_encoding.md). -/

namespace Sys2Proof

/-- SYS cannot name an address whose opcode is CLS or RET (rule R97): under EXACT the addresses 0x0E0 and 0x0EE,
under LOW_BYTE every address that ends in 0xE0 or 0xEE. -/
def sysWellFormed (d : DecodeParams) (nnn : Addr12) : Bool :=
  match d.family0 with
  | .exact   => nnn != 0x0E0#12 && nnn != 0x0EE#12
  | .lowByte => nnn.extractLsb' 0 8 != 0xE0#8 && nnn.extractLsb' 0 8 != 0xEE#8

/-- The low nibble of 5XYn and 9XYn is free under IGNORE and must be 0 under NOP and FAULT (rule R98). -/
def lowNibWellFormed (d : DecodeParams) (n : Nibble) : Bool :=
  match d.lowNib59 with
  | .ignore => true
  | .nop    => n == 0#4
  | .fault  => n == 0#4

def Instr.wf (d : DecodeParams) : Instr → Bool
  | .sys nnn => sysWellFormed d nnn
  | .seReg _ _ n => lowNibWellFormed d n
  | .sneReg _ _ n => lowNibWellFormed d n
  | .cls | .ret | .jp _ | .call _ | .seImm _ _ | .sneImm _ _ | .ldImm _ _ | .addImm _ _ => true
  | .ldReg _ _ | .orReg _ _ | .andReg _ _ | .xorReg _ _ | .addReg _ _ | .sub _ _ => true
  | .shr _ _ | .subn _ _ | .shl _ _ | .ldI _ | .jpV0 _ | .rnd _ _ | .drw _ _ _ => true
  | .skp _ | .sknp _ | .ldVxDt _ | .ldVxK _ | .ldDtVx _ | .ldStVx _ | .addI _ | .ldF _ => true
  | .ldBcd _ | .ldMemVx _ | .ldVxMem _ => true

end Sys2Proof
end

