-- ==== Sys2Proof/Decode.lean ====
section
/-! DEFINITION. From the 16 bits of an opcode to an instruction and back (spec/30_encoding.md). The decoder is
total on every word and rejects by name; the encoder writes the same layouts the other way. -/

namespace Sys2Proof

/-! ### The fields of an opcode (rule R91) -/

/-- T, bits 15:12: the family. -/
def opT (op : Word) : Nibble := op.extractLsb' 12 4
/-- X, bits 11:8. -/
def opX (op : Word) : RegIx := op.extractLsb' 8 4
/-- Y, bits 7:4. -/
def opY (op : Word) : RegIx := op.extractLsb' 4 4
/-- N, bits 3:0. -/
def opN (op : Word) : Nibble := op.extractLsb' 0 4
/-- NN, bits 7:0. -/
def opNN (op : Word) : Byte := op.extractLsb' 0 8
/-- NNN, bits 11:0. -/
def opNNN (op : Word) : Addr12 := op.extractLsb' 0 12

/-- What an opcode decodes to. -/
inductive Decoded where
  /-- One of the 35 instructions. -/
  | instr (i : Instr)
  /-- A 5XYn or 9XYn with n other than 0 under LOWNIB_59 = NOP: only the fetch increment (rule R98). -/
  | noOp
  /-- No handler: UnimplementedOpcode is raised (rules R94 and R96). -/
  | unimplemented
deriving DecidableEq, Repr

/-- Family 0 (rule R97). -/
def decodeFamily0 (d : DecodeParams) (op : Word) : Instr :=
  match d.family0 with
  | .exact =>
    if op = 0x00E0#16 then .cls else if op = 0x00EE#16 then .ret else .sys (opNNN op)
  | .lowByte =>
    if opNN op = 0xE0#8 then .cls else if opNN op = 0xEE#8 then .ret else .sys (opNNN op)

/-- Families 5 and 9, whose low nibble is not part of the pattern (rule R98). -/
def decodeLowNib (d : DecodeParams) (n : Nibble) (i : Instr) : Decoded :=
  match d.lowNib59 with
  | .ignore => .instr i
  | .nop    => if n = 0#4 then .instr i else .noOp
  | .fault  => if n = 0#4 then .instr i else .unimplemented

/-- Family 8, by the low nibble (rule R94). -/
def decodeFamily8 (x y : RegIx) (n : Nibble) : Decoded :=
  if n = 0x0#4 then .instr (.ldReg x y)
  else if n = 0x1#4 then .instr (.orReg x y)
  else if n = 0x2#4 then .instr (.andReg x y)
  else if n = 0x3#4 then .instr (.xorReg x y)
  else if n = 0x4#4 then .instr (.addReg x y)
  else if n = 0x5#4 then .instr (.sub x y)
  else if n = 0x6#4 then .instr (.shr x y)
  else if n = 0x7#4 then .instr (.subn x y)
  else if n = 0xE#4 then .instr (.shl x y)
  else .unimplemented

/-- Family E, by the low byte (rule R94). -/
def decodeFamilyE (x : RegIx) (nn : Byte) : Decoded :=
  if nn = 0x9E#8 then .instr (.skp x)
  else if nn = 0xA1#8 then .instr (.sknp x)
  else .unimplemented

/-- Family F, by the low byte (rule R94). -/
def decodeFamilyF (x : RegIx) (nn : Byte) : Decoded :=
  if nn = 0x07#8 then .instr (.ldVxDt x)
  else if nn = 0x0A#8 then .instr (.ldVxK x)
  else if nn = 0x15#8 then .instr (.ldDtVx x)
  else if nn = 0x18#8 then .instr (.ldStVx x)
  else if nn = 0x1E#8 then .instr (.addI x)
  else if nn = 0x29#8 then .instr (.ldF x)
  else if nn = 0x33#8 then .instr (.ldBcd x)
  else if nn = 0x55#8 then .instr (.ldMemVx x)
  else if nn = 0x65#8 then .instr (.ldVxMem x)
  else .unimplemented

/-- The decoder of rule R94, with the two parameters of rules R97 and R98. -/
def decode (d : DecodeParams) (op : Word) : Decoded :=
  let t := opT op
  if t = 0x0#4 then .instr (decodeFamily0 d op)
  else if t = 0x1#4 then .instr (.jp (opNNN op))
  else if t = 0x2#4 then .instr (.call (opNNN op))
  else if t = 0x3#4 then .instr (.seImm (opX op) (opNN op))
  else if t = 0x4#4 then .instr (.sneImm (opX op) (opNN op))
  else if t = 0x5#4 then decodeLowNib d (opN op) (.seReg (opX op) (opY op) (opN op))
  else if t = 0x6#4 then .instr (.ldImm (opX op) (opNN op))
  else if t = 0x7#4 then .instr (.addImm (opX op) (opNN op))
  else if t = 0x8#4 then decodeFamily8 (opX op) (opY op) (opN op)
  else if t = 0x9#4 then decodeLowNib d (opN op) (.sneReg (opX op) (opY op) (opN op))
  else if t = 0xA#4 then .instr (.ldI (opNNN op))
  else if t = 0xB#4 then .instr (.jpV0 (opNNN op))
  else if t = 0xC#4 then .instr (.rnd (opX op) (opNN op))
  else if t = 0xD#4 then .instr (.drw (opX op) (opY op) (opN op))
  else if t = 0xE#4 then decodeFamilyE (opX op) (opNN op)
  else decodeFamilyF (opX op) (opNN op)

/-- An opcode from its two bytes, the one at the lower address first (rule R63). -/
def opcodeOf (b0 b1 : Byte) : Word := b0 ++ b1

/-- The two bytes of an opcode in the order memory holds them (rule R63). -/
def opcodeBytes (op : Word) : List Byte := [op.extractLsb' 8 8, op.extractLsb' 0 8]

/-- Decoding a run of bytes: the first two are the opcode and the rest is handed back.
Fewer than two bytes hold no opcode. -/
def decodeBytes (d : DecodeParams) : List Byte → Option (Decoded × List Byte)
  | b0 :: b1 :: rest => some (decode d (opcodeOf b0 b1), rest)
  | [_] => none
  | [] => none

/-! ### The encoder (the layouts of rules R92 and R95) -/

/-- Format A: family and address. -/
def formatA (t : Nibble) (nnn : Addr12) : Word := t ++ nnn
/-- Formats RB and RF: family, register and byte. -/
def formatRB (t : Nibble) (x : RegIx) (nn : Byte) : Word := t ++ x ++ nn
/-- Formats RR and D: family, two registers and a nibble. -/
def formatRR (t : Nibble) (x y : RegIx) (n : Nibble) : Word := t ++ x ++ y ++ n

/-- The opcode of an instruction. -/
def encode : Instr → Word
  | .sys nnn => formatA 0x0#4 nnn
  | .cls => 0x00E0#16
  | .ret => 0x00EE#16
  | .jp nnn => formatA 0x1#4 nnn
  | .call nnn => formatA 0x2#4 nnn
  | .seImm x nn => formatRB 0x3#4 x nn
  | .sneImm x nn => formatRB 0x4#4 x nn
  | .seReg x y n => formatRR 0x5#4 x y n
  | .ldImm x nn => formatRB 0x6#4 x nn
  | .addImm x nn => formatRB 0x7#4 x nn
  | .ldReg x y => formatRR 0x8#4 x y 0x0#4
  | .orReg x y => formatRR 0x8#4 x y 0x1#4
  | .andReg x y => formatRR 0x8#4 x y 0x2#4
  | .xorReg x y => formatRR 0x8#4 x y 0x3#4
  | .addReg x y => formatRR 0x8#4 x y 0x4#4
  | .sub x y => formatRR 0x8#4 x y 0x5#4
  | .shr x y => formatRR 0x8#4 x y 0x6#4
  | .subn x y => formatRR 0x8#4 x y 0x7#4
  | .shl x y => formatRR 0x8#4 x y 0xE#4
  | .sneReg x y n => formatRR 0x9#4 x y n
  | .ldI nnn => formatA 0xA#4 nnn
  | .jpV0 nnn => formatA 0xB#4 nnn
  | .rnd x nn => formatRB 0xC#4 x nn
  | .drw x y n => formatRR 0xD#4 x y n
  | .skp x => formatRB 0xE#4 x 0x9E#8
  | .sknp x => formatRB 0xE#4 x 0xA1#8
  | .ldVxDt x => formatRB 0xF#4 x 0x07#8
  | .ldVxK x => formatRB 0xF#4 x 0x0A#8
  | .ldDtVx x => formatRB 0xF#4 x 0x15#8
  | .ldStVx x => formatRB 0xF#4 x 0x18#8
  | .addI x => formatRB 0xF#4 x 0x1E#8
  | .ldF x => formatRB 0xF#4 x 0x29#8
  | .ldBcd x => formatRB 0xF#4 x 0x33#8
  | .ldMemVx x => formatRB 0xF#4 x 0x55#8
  | .ldVxMem x => formatRB 0xF#4 x 0x65#8

/-! ### A word of the opcode table -/

/-- The opcode that a table word stands for: an instruction is one 16-bit word (rule R90), and the bits above
`nbits` are 0. -/
def tableOpcode (nbits w : Nat) : Word := BitVec.ofNat 16 (w % 2 ^ nbits)

/-- What the decoder reads, with the default parameters, from the bytes of a table word as memory holds them. -/
def decodeTableWord (nbits w : Nat) : Option Instr :=
  match decodeBytes DecodeParams.default (opcodeBytes (tableOpcode nbits w)) with
  | some (.instr i, _) => some i
  | some (.noOp, _) => none
  | some (.unimplemented, _) => none
  | none => none

end Sys2Proof
end

