-- ==== Sys2Proof/Machine/State.lean ====
section
/-! DEFINITION. The state of the core as plain data: everything spec/10_state.md rule R20 lists, and three fields
of the model's own (the parameters, the count of CXNN draws, and whose turn it is). -/

namespace Sys2Proof.Machine

/-- The errors that step() and reset() can return (spec/60_exceptions.md rule R301). They are data of the machine:
an error of a step becomes part of the status, and the machine is in a next state (rule R303, log entry 7). -/
inductive Error where
  /-- Code 1: the program image could not be read. Raised by reset. -/
  | programLoadError
  /-- Code 2: RET on an empty stack. -/
  | stackUnderflow
  /-- Code 3: no handler for the opcode. -/
  | unimplementedOpcode (op : Word)
  /-- Code 4: an address, an FX1E sum or a host-port index out of range. -/
  | outOfBoundsAccess (info : Nat)
  /-- Code 5: CALL on a full stack of bounded depth. -/
  | stackOverflow
deriving DecidableEq, Repr

/-- The machine status (rule R34). -/
inductive Status where
  /-- No successful reset yet, or the last reset failed. -/
  | unreset
  | running
  /-- A step raised `e`; only a successful reset leaves this status. -/
  | faulted (e : Error)
deriving DecidableEq, Repr

/-- One entry of the agenda: which agent moves (log entry 6). -/
inductive Turn where
  /-- The executor: one call of step(). -/
  | executor
  /-- A timer process or another call of the host. -/
  | other (e : Event)
  /-- Any agent: the next value of Config.freeTurn says which. -/
  | free
deriving DecidableEq, Repr

/-- The turns to come: those of `next` once, then those of `cycle` over and over, and the executor alone where both are
empty. So an agenda can be finite, fair for ever, or left wholly open by free turns (rule R326, log entry 6). -/
structure Agenda where
  next  : List Turn
  cycle : List Turn
  /-- How many free turns have been taken. -/
  frees : Nat
deriving DecidableEq, Repr

/-- What the core returns to the caller of an operation (rule R330). -/
inductive Reply where
  /-- Ok, or nothing to return. -/
  | ok
  | error (e : Error)
  /-- The bit that read_pixel returns. -/
  | pixel (b : Bool)
  /-- The flag that take_dirty_flag returns. -/
  | dirtyFlag (b : Bool)
deriving DecidableEq, Repr

/-- The ways a step can stop WITHOUT a next state and with a reason the hardware reports: there are none.
Every error this spec names leaves a state that the spec describes (the status is FAULTED, the writes before the
error stand, rules R303 and R304), so raising one is a next state and no stop. Safe: nothing is left out by it. -/
inductive Fault where
deriving DecidableEq, Repr

/-- Transitions that have no meaning. -/
inductive Refusal where
  /-- Raised by exec for an instruction that has no meaning yet. Safe: nothing can be proved of such a step. -/
  | notModelled (mnemonic : String)
  /-- Raised by step when step(), read_pixel or take_dirty_flag is called in status UNRESET, which rule R335 refuses
  ("the model has no meaning for them before the first reset"), read_pixel with an index out of range too (log entry 16).
  Safe. -/
  | calledBeforeReset
  /-- Raised by step when reset is called with more than 0xE00 bytes, which rule R352 refuses (the source leaves it to
  the caller). Safe. -/
  | programTooLong (length : Nat)
deriving DecidableEq, Repr

structure State where
  /-- V0..VF; VF is V[15] (rules R21 and R22). -/
  regs   : Vector Byte 16
  /-- The index register I (rule R23). -/
  i      : Word
  /-- The program counter (rule R24). -/
  pc     : Word
  /-- The call stack, most recent entry first (rule R25). -/
  stack  : List Word
  /-- The delay timer DT (rule R26). -/
  dt     : Byte
  /-- The sound timer ST (rule R27). -/
  st     : Byte
  /-- The framebuffer: bit x of entry y is the pixel at column x and row y (rule R28). -/
  fb     : Vector (BitVec 64) 32
  /-- The framebuffer's dirty flag DIRTY (rule R29). -/
  dirty  : Bool
  /-- The keypad latch: bit k is KEY[k], 1 for pressed (rule R30). -/
  key    : BitVec 16
  /-- Memory: the bytes that differ from what the last reset left there, by rising address (rule R32). -/
  mem    : List Host.Cell
  /-- The machine status (rule R34). -/
  status : Status
  /-- The model's own: the parameters of rule R6, which no transition writes (log entry 1). -/
  params : Params
  /-- The model's own: how many bytes CXNN has drawn (log entry 5). -/
  draws  : Nat
  /-- The model's own: which agents move next (log entry 6). -/
  agenda : Agenda
deriving DecidableEq, Repr

/-- The machine right after the first successful reset, with the default parameters and no program bytes: the table of
rule R37 (how a program comes to run is log entry 9). -/
def State.reset : State where
  regs   := Vector.replicate 16 0x00#8
  i      := 0x0000#16
  pc     := 0x0200#16
  stack  := []
  dt     := Params.default.initDT
  st     := Params.default.initST
  fb     := Vector.replicate 32 0#64
  dirty  := false
  key    := 0#16
  mem    := []
  status := .running
  params := Params.default
  draws  := 0
  agenda := { next := [], cycle := [], frees := 0 }

end Sys2Proof.Machine
end

