-- ==== Sys2Proof/Machine/Memory.lean ====
section
/-! DEFINITION. The 4096-byte memory as a list of address and byte pairs in one canonical form
(spec/20_memory.md rules R60 to R66). `base` is what an address that the list does not name reads as. -/

namespace Sys2Proof

/-- The byte of MEM_RESIDUE at an address (rule R6, decision D17). -/
def residueByte (a : Nat) : List Host.Cell → Byte
  | [] => 0x00#8
  | (b, v) :: rest => if a = b then v else residueByte a rest

/-- What an address that memory does not list reads as: what reset left there, the font table at
FONT_BASE..FONT_BASE+5*FONT_GLYPHS-1 and MEM_RESIDUE elsewhere (rules R33, R37 and R350). -/
def Params.unlisted (p : Params) (a : Nat) : Byte :=
  if p.fontBase ≤ a ∧ a < p.fontBase + 5 * p.fontGlyphs then p.fontData.getD (a - p.fontBase) 0x00#8
  else residueByte a p.residue

namespace Machine

/-- The byte at an address. -/
def Memory.read (base : Nat → Byte) (a : Nat) : List Host.Cell → Byte
  | [] => base a
  | (b, v) :: rest => if a = b then v else Memory.read base a rest

/-- A pair put before the first pair of a larger address. -/
def Memory.insertCell (a : Nat) (v : Byte) : List Host.Cell → List Host.Cell
  | [] => [(a, v)]
  | (b, w) :: rest => if a < b then (a, v) :: (b, w) :: rest else (b, w) :: Memory.insertCell a v rest

/-- The list without an address. -/
def Memory.dropCell (a : Nat) : List Host.Cell → List Host.Cell
  | [] => []
  | (b, w) :: rest => if a = b then Memory.dropCell a rest else (b, w) :: Memory.dropCell a rest

/-- Writing a byte: the old pair goes, and a new one comes only where the byte is not what an unlisted address reads as. -/
def Memory.write (base : Nat → Byte) (a : Nat) (v : Byte) (m : List Host.Cell) : List Host.Cell :=
  if v = base a then Memory.dropCell a m else Memory.insertCell a v (Memory.dropCell a m)

/-- Bytes written at rising addresses from `a`. -/
def Memory.writeBytes (base : Nat → Byte) : Nat → List Byte → List Host.Cell → List Host.Cell
  | _, [], m => m
  | a, v :: vs, m => Memory.writeBytes base (a + 1) vs (Memory.write base a v m)

/-- The canonical form: strictly rising addresses below 4096, and no pair that says what an unlisted address reads as
anyway. -/
def Memory.wf (base : Nat → Byte) : List Host.Cell → Bool
  | [] => true
  | (a, v) :: rest => decide (a < memSize) && v != base a && rest.all (fun c => decide (a < c.1)) && Memory.wf base rest

end Machine
end Sys2Proof
end

