-- ==== Sys2Proof/Machine/Ops.lean ====
section
/-! DEFINITION. The named operations that every rule uses (spec/00_scope.md rule R9): registers, memory, stack, pixels,
raising an error, and reset, the one way out of an error. -/

namespace Sys2Proof.Machine

/-! ### Registers (rules R21 to R24) -/

/-- VF is V[15] (rule R22). -/
abbrev vf : RegIx := 0xF#4

/-- V[r]. -/
def State.v (s : State) (r : RegIx) : Byte := s.regs[r.toNat]'r.isLt

/-- V[r] <- b. -/
def State.setV (s : State) (r : RegIx) (b : Byte) : State := { s with regs := s.regs.set r.toNat b r.isLt }

/-- I <- w. -/
def State.setI (s : State) (w : Word) : State := { s with i := w }

/-- pc <- w. -/
def State.setPc (s : State) (w : Word) : State := { s with pc := w }

/-- DT <- b. -/
def State.setDt (s : State) (b : Byte) : State := { s with dt := b }

/-- ST <- b. -/
def State.setSt (s : State) (b : Byte) : State := { s with st := b }

/-- Skip: pc <- pc + 2 when the condition holds (rules R11 and R160). -/
def State.skipIf (c : Bool) (s : State) : State := if c then s.setPc (s.pc + 2#16) else s

/-- RandomByte(): the next draw, and the count of draws goes up (rule R191, log entry 5). -/
def State.drawByte (s : State) : Byte := Config.randomByte s.draws

def State.countDraw (s : State) : State := { s with draws := s.draws + 1 }

/-! ### Taking an error (rules R303 and R304) -/

/-- Taking an error: the status becomes FAULTED(e). Nothing is saved anywhere else, no handler runs, and every write made
before stands. -/
def takeError (e : Error) (s : State) : State := { s with status := .faulted e }

/-- A run of writes that either goes to its end or stops at a `raise`, with the state as the writes before it left it. -/
inductive Effect where
  | done (s : State)
  | raised (e : Error) (s : State)
deriving DecidableEq, Repr

/-- The next writes, unless a `raise` has ended the list (rule R126). -/
def Effect.andThen (r : Effect) (f : State → Effect) : Effect :=
  match r with
  | .done s => f s
  | .raised e s => .raised e s

/-- A `for` loop of the pseudocode, ended by the first `raise`. -/
def Effect.forEach {α : Type} (f : α → State → Effect) : List α → State → Effect
  | [], s => .done s
  | a :: rest, s => (f a s).andThen (Effect.forEach f rest)

/-- How an instruction ends: with its last write, or by taking the error it raised. -/
def Effect.outcome (r : Effect) : Host.Outcome State Fault Refusal :=
  match r with
  | .done s => .next s
  | .raised e s => .next (takeError e s)

/-- What step() returns, read from the status it leaves: Ok, or the error (rules R126 and R303). -/
def State.stepResult (s : State) : Reply :=
  match s.status with
  | .faulted e => .error e
  | .running => .ok
  | .unreset => .ok

/-- The numeric code of an error (rule R301). -/
def Error.code : Error → Nat
  | .programLoadError => 1
  | .stackUnderflow => 2
  | .unimplementedOpcode _ => 3
  | .outOfBoundsAccess _ => 4
  | .stackOverflow => 5

/-! ### Memory (rules R61, R62 and R66) -/

/-- The byte at an address, read without a check: what the model calls the contents of memory. -/
def State.byteAt (s : State) (a : Nat) : Byte := Memory.read s.params.unlisted a s.mem

/-- Memory with one byte changed, written without a check. -/
def State.putByte (s : State) (a : Nat) (b : Byte) : State := { s with mem := Memory.write s.params.unlisted a b s.mem }

/-- MemRead(addr, 1). -/
def memRead (a : Nat) (s : State) : Except Error Byte :=
  if a ≤ 0xFFF then .ok (s.byteAt a) else .error (.outOfBoundsAccess a)

/-- MemWrite(addr, 1, b). -/
def memWrite (a : Nat) (b : Byte) (s : State) : Effect :=
  if a ≤ 0xFFF then .done (s.putByte a b) else .raised (.outOfBoundsAccess a) s

/-- MemRead inside an instruction: the rest of the instruction gets the byte, unless the read raises. -/
def readInto (a : Nat) (k : Byte → State → Effect) (s : State) : Effect :=
  match memRead a s with
  | .ok b => k b s
  | .error e => .raised e s

/-! ### The call stack (rule R25) -/

/-- Whether the stack holds STACK_DEPTH entries or more; never under UNBOUNDED. -/
def State.stackFull (s : State) : Bool :=
  match s.params.stackDepth with
  | none => false
  | some n => decide (n ≤ s.stack.length)

/-- push(w). -/
def push (w : Word) (s : State) : Effect :=
  if s.stackFull then .raised .stackOverflow s else .done { s with stack := w :: s.stack }

/-- pop(), handing the popped entry to the rest of the instruction. -/
def popInto (k : Word → State → Effect) (s : State) : Effect :=
  match s.stack with
  | [] => .raised .stackUnderflow s
  | w :: rest => k w { s with stack := rest }

/-! ### The framebuffer (rules R28 and R29) -/

/-- FB[x][y]; there is no pixel outside 64 columns and 32 rows. -/
def State.pixel (s : State) (x y : Nat) : Bool := if h : y < 32 then (s.fb[y]'h).getLsbD x else false

/-- FB[x][y] <- FB[x][y] xor 1, for x below 64 and y below 32. -/
def State.togglePixel (s : State) (x y : Nat) : State :=
  if h : y < 32 then { s with fb := s.fb.set y ((s.fb[y]'h) ^^^ BitVec.twoPow 64 x) h } else s

/-- Every pixel becomes 0. -/
def State.clearPixels (s : State) : State := { s with fb := Vector.replicate 32 0#64 }

/-- DIRTY <- b. -/
def State.setDirty (s : State) (b : Bool) : State := { s with dirty := b }

/-! ### The instruction fetch (rules R63, R120 and R121) -/

/-- The opcode at pc: the bytes at pc and pc + 1, in that order. -/
def fetch (s : State) : Except Error Word :=
  match memRead s.pc.toNat s with
  | .error e => .error e
  | .ok b0 =>
    match memRead (s.pc.toNat + 1) s with
    | .error e => .error e
    | .ok b1 => .ok (opcodeOf b0 b1)

/-- The fetch increment. -/
def State.advancePc (s : State) : State := s.setPc (s.pc + 2#16)

/-! ### Reset, the way out of FAULTED (rules R307, R350, R351 and R352) -/

/-- The most program bytes that fit from 0x200 to 0xFFF (rule R352). -/
def maxProgram : Nat := 0xE00

/-- What a successful reset leaves: the table of rule R37. KEY, the parameters, the count of draws and the other agents'
turns are not touched. -/
def State.load (program : List Byte) (s : State) : State :=
  { s with
    regs := Vector.replicate 16 0x00#8, i := 0x0000#16, pc := 0x0200#16, stack := []
    dt := s.params.initDT, st := s.params.initST
    fb := Vector.replicate 32 0#64, dirty := false
    mem := Memory.writeBytes s.params.unlisted progBase program []
    status := .running }

/-- reset(program_bytes): a failed load leaves status UNRESET and writes nothing else (rule R351), a program that does not
fit is refused (rule R352), any other is loaded (rule R350). -/
def resetCall (image : Option (List Byte)) (s : State) : Host.Outcome (Reply × State) Fault Refusal :=
  match image with
  | none => .next (.error .programLoadError, { s with status := .unreset })
  | some program =>
    if program.length ≤ maxProgram then .next (.ok, s.load program)
    else .refused (.programTooLong program.length)

end Sys2Proof.Machine
end

