-- ==== Sys2Proof/Machine/Operands.lean ====
section
/-! DEFINITION. The operand forms (spec/30_encoding.md rule R93, spec/44_index_memory.md rule R226, spec/10_state.md rule
R31): zero-extended immediates, addresses formed from I, register ranges, the pressed key, decimal digits and clamped
coordinates. -/

namespace Sys2Proof.Machine

/-- zext_16(NNN): an address immediate as a value of pc or I. -/
def zextAddr (nnn : Addr12) : Word := nnn.setWidth 16

/-- zext_16(V[0]) + zext_16(NNN): the target of BNNN; at most 0x10FE, so it never wraps (rule R144). -/
def jumpV0Target (v0 : Byte) (nnn : Addr12) : Word := v0.setWidth 16 + nnn.setWidth 16

/-- base + k, the exact data address of rule R226, base being I. -/
def State.dataAddr (s : State) (k : Nat) : Nat := s.i.toNat + k

/-- The numbers of V0..V[X], ascending (rules R224 and R225). -/
def regRange (x : RegIx) : List Nat := List.range (x.toNat + 1)

/-- The register of a number 0..15. -/
def regOf (k : Nat) : RegIx := BitVec.ofNat 4 k

/-- I after FX55 and FX65: base + X + 1 (rule R226). -/
def indexAfter (base : Word) (x : RegIx) : Word := base + x.setWidth 16 + 1#16

/-- FONT_BASE + vx * 5 (rule R222). -/
def glyphAddr (p : Params) (vx : Byte) : Word := BitVec.ofNat 16 (p.fontBase + vx.toNat * 5)

/-- pressed_key(): the lowest pressed key, `none` for NONE (rule R31). -/
def State.pressedKey (s : State) : Option Byte :=
  ((List.range 16).find? fun k => s.key.getLsbD k).map fun k => BitVec.ofNat 8 k

/-- The hundreds, tens and units digits of a byte (rule R223). -/
def hundreds (b : Byte) : Byte := BitVec.ofNat 8 (b.toNat / 100)
def tens (b : Byte) : Byte := BitVec.ofNat 8 (b.toNat / 10 % 10)
def units (b : Byte) : Byte := BitVec.ofNat 8 (b.toNat % 10)

/-- min(x, 63): a column clamped to the last one (rule R251). -/
def clampX (x : Nat) : Nat := min x 63
/-- min(y, 31): a row clamped to the last one (rule R251). -/
def clampY (y : Nat) : Nat := min y 31

end Sys2Proof.Machine
end

