-- ==== Sys2Proof/Machine/Turns.lean ====
section
/-! DEFINITION. Whose turn it is: how the agenda is read and how a turn is taken (spec/60_exceptions.md rules R320 and R326,
log entry 6). -/

namespace Sys2Proof.Machine

/-- The entry that comes next. -/
def Agenda.head (a : Agenda) : Turn :=
  match a.next with
  | t :: _ => t
  | [] =>
    match a.cycle with
    | t :: _ => t
    | [] => .executor

/-- The entries left of this pass once the first is taken. -/
def Agenda.left (a : Agenda) : List Turn :=
  match a.next with
  | _ :: rest => rest
  | [] => a.cycle.tail

/-- The count of free turns once an entry is taken. -/
def countFree (frees : Nat) : Turn → Nat
  | .executor => frees
  | .other _ => frees
  | .free => frees + 1

/-- The agenda with its first entry taken; the cycle stays for the passes after this one. -/
def Agenda.drop (a : Agenda) : Agenda := { a with next := a.left, frees := countFree a.frees a.head }

/-- The event that comes next, `none` where the executor moves. -/
def Agenda.event (a : Agenda) : Option Event :=
  match a.head with
  | .executor => none
  | .other e => some e
  | .free => Config.freeTurn a.frees

/-- The agenda with the executor first. -/
def Agenda.executorFirst (a : Agenda) : Agenda :=
  match a.head with
  | .executor => a
  | .other _ => { a with next := .executor :: a.next }
  | .free => { a with next := .executor :: a.next }

/-- Whose turn it is: an event of another agent, or `none` for the executor. -/
def State.turn (s : State) : Option Event := s.agenda.event

/-- The state with the turn taken. -/
def State.dropTurn (s : State) : State := { s with agenda := s.agenda.drop }

end Sys2Proof.Machine
end

