-- ==== Sys2Proof/Machine/Agents.lean ====
section
/-! DEFINITION. The agents besides the executor (spec/60_exceptions.md): the two timer processes and the host's calls. Each
event is one atomic transition and answers what its caller gets back. -/

namespace Sys2Proof.Machine

/-- A tick of a timer (rule R325). -/
def tickValue (policy : TimerZeroPolicy) (restart t : Byte) : Byte :=
  if t = 0x00#8 then
    match policy with
    | .restart => restart
    | .hold => t
  else t - 0x01#8

/-- A tick of the delay-timer process; before a successful reset there is no such process (rule R327). -/
def delayTick (s : State) : State :=
  match s.status with
  | .unreset => s
  | .running => s.setDt (tickValue s.params.timerZero s.params.restartDT s.dt)
  | .faulted _ => s.setDt (tickValue s.params.timerZero s.params.restartDT s.dt)

/-- A tick of the sound-timer process (rules R325 and R327). -/
def soundTick (s : State) : State :=
  match s.status with
  | .unreset => s
  | .running => s.setSt (tickValue s.params.timerZero s.params.restartST s.st)
  | .faulted _ => s.setSt (tickValue s.params.timerZero s.params.restartST s.st)

/-- KEY[k] <- 1 (rule R333). -/
def State.pressKey (s : State) (k : Nat) : State := { s with key := s.key ||| BitVec.twoPow 16 k }

/-- KEY[k] <- 0 (rule R333). -/
def State.releaseKey (s : State) (k : Nat) : State := { s with key := s.key &&& ~~~BitVec.twoPow 16 k }

/-- A call that only a machine that has been reset accepts (rule R335). DESIGN CHOICE: read_pixel with an index out of range
in UNRESET falls under R334 (OutOfBoundsAccess to the caller) and under R335 (refused); the model refuses it (log entry 16). -/
def afterReset (s : State) (answer : Reply × State) : Host.Outcome (Reply × State) Fault Refusal :=
  match s.status with
  | .unreset => .refused .calledBeforeReset
  | .running => .next answer
  | .faulted _ => .next answer

/-- A call whose index is out of range: OutOfBoundsAccess(index) to the caller and no change (rule R334). -/
def indexError (index : Nat) (s : State) : Reply × State := (.error (.outOfBoundsAccess index), s)

/-- read_pixel(x, y) (rules R331 and R334); of two indices out of range, x is the one reported (log entry 12). -/
def readPixel (x y : Nat) (s : State) : Reply × State :=
  if 64 ≤ x then indexError x s else if 32 ≤ y then indexError y s else (.pixel (s.pixel x y), s)

/-- take_dirty_flag(): read and clear (rule R332). -/
def takeDirtyFlag (s : State) : Reply × State := (.dirtyFlag s.dirty, s.setDirty false)

/-- set_key_pressed(k) (rules R333 and R334). -/
def setKeyPressed (k : Nat) (s : State) : Reply × State := if k < 16 then (.ok, s.pressKey k) else indexError k s

/-- set_key_released(k) (rules R333 and R334). -/
def setKeyReleased (k : Nat) (s : State) : Reply × State := if k < 16 then (.ok, s.releaseKey k) else indexError k s

/-- One event of an agent other than the executor. -/
def perform (e : Event) (s : State) : Host.Outcome (Reply × State) Fault Refusal :=
  match e with
  | .delayTick => .next (.ok, delayTick s)
  | .soundTick => .next (.ok, soundTick s)
  | .setKeyPressed k => .next (setKeyPressed k s)
  | .setKeyReleased k => .next (setKeyReleased k s)
  | .readPixel x y => afterReset s (readPixel x y s)
  | .takeDirtyFlag => afterReset s (takeDirtyFlag s)
  | .reset image => resetCall image s

/-- The state an event leaves, what its caller gets back left aside. -/
def eventState (r : Host.Outcome (Reply × State) Fault Refusal) : Host.Outcome State Fault Refusal :=
  match r with
  | .next answer => .next answer.2
  | .fault f => .fault f
  | .refused f => .refused f

/-! ### Placing an instruction where the executor fetches next -/

/-- A pc that can be fetched from: the pc itself up to 0xFFE, else the program base. -/
def fetchablePc (pc : Word) : Word := if pc.toNat ≤ 0xFFE then pc else 0x0200#16

/-- The two bytes of an opcode put at pc and pc + 1, the machine running and the executor next. -/
def State.placeOpcode (s : State) (op : Word) : State :=
  let pc := fetchablePc s.pc
  { s with
    pc := pc
    mem := Memory.writeBytes s.params.unlisted pc.toNat (opcodeBytes op) s.mem
    status := .running
    agenda := s.agenda.executorFirst }

end Sys2Proof.Machine
end

