-- ==== Sys2Proof/Machine/Flags.lean ====
section
/-! DEFINITION. The values that instructions write to VF as a flag (spec/43_register_alu.md rule R195 and rules R186 to
R190). -/

namespace Sys2Proof.Machine

/-- A flag as the byte VF gets: 1 or 0. -/
def flagByte (b : Bool) : Byte := if b then 0x01#8 else 0x00#8

/-- Carry of 8XY4: 1 exactly when the exact sum exceeds 0xFF. -/
def carryFlag (a b : Byte) : Byte := flagByte (decide (a.toNat + b.toNat > 0xFF))

/-- Not-borrow of a - b: 0 exactly when the exact difference would be negative. -/
def notBorrowFlag (a b : Byte) : Byte := flagByte (!decide (a.toNat < b.toNat))

/-- The bit that a shift right drops: bit 0. -/
def lowBitFlag (a : Byte) : Byte := flagByte (a.getLsbD 0)

/-- The bit that a shift left drops: bit 7. -/
def highBitFlag (a : Byte) : Byte := flagByte (a.getLsbD 7)

end Sys2Proof.Machine
end

