-- ==== Sys2Proof/Machine/Alu.lean ====
section
/-! DEFINITION. Register loads and arithmetic (spec/43_register_alu.md). Operands are read before any write, and the
writes happen in the order the rule lists them, so of two writes to VF the later one stands (rule R10). -/

namespace Sys2Proof.Machine

/-- 6XNN: V[X] <- NN (rule R180). -/
def execLdImm (x : RegIx) (nn : Byte) (s : State) : Host.Outcome State Fault Refusal := .next (s.setV x nn)

/-- 7XNN: V[X] <- V[X] + NN, no flag (rule R181). -/
def execAddImm (x : RegIx) (nn : Byte) (s : State) : Host.Outcome State Fault Refusal := .next (s.setV x (s.v x + nn))

/-- 8XY0: V[X] <- V[Y] (rule R182). -/
def execLdReg (x y : RegIx) (s : State) : Host.Outcome State Fault Refusal := .next (s.setV x (s.v y))

/-- 8XY1: V[X] <- V[X] | V[Y], no flag (rule R183). -/
def execOr (x y : RegIx) (s : State) : Host.Outcome State Fault Refusal := .next (s.setV x (s.v x ||| s.v y))

/-- 8XY2: V[X] <- V[X] & V[Y], no flag (rule R184). -/
def execAnd (x y : RegIx) (s : State) : Host.Outcome State Fault Refusal := .next (s.setV x (s.v x &&& s.v y))

/-- 8XY3: V[X] <- V[X] ^ V[Y], no flag (rule R185). -/
def execXor (x y : RegIx) (s : State) : Host.Outcome State Fault Refusal := .next (s.setV x (s.v x ^^^ s.v y))

/-- 8XY4: V[X] <- vx + vy, then VF <- carry (rule R186). -/
def execAddReg (x y : RegIx) (s : State) : Host.Outcome State Fault Refusal :=
  .next ((s.setV x (s.v x + s.v y)).setV vf (carryFlag (s.v x) (s.v y)))

/-- 8XY5: VF <- not-borrow of vx - vy, then V[X] <- vx - vy (rule R187). -/
def execSub (x y : RegIx) (s : State) : Host.Outcome State Fault Refusal :=
  .next ((s.setV vf (notBorrowFlag (s.v x) (s.v y))).setV x (s.v x - s.v y))

/-- 8XY6: VF <- bit 0 of vx, then V[X] <- vx >> 1 (rule R188). -/
def execShr (x : RegIx) (s : State) : Host.Outcome State Fault Refusal :=
  .next ((s.setV vf (lowBitFlag (s.v x))).setV x (s.v x >>> 1))

/-- 8XY7: VF <- not-borrow of vy - vx, then V[X] <- vy - vx (rule R189). -/
def execSubn (x y : RegIx) (s : State) : Host.Outcome State Fault Refusal :=
  .next ((s.setV vf (notBorrowFlag (s.v y) (s.v x))).setV x (s.v y - s.v x))

/-- 8XYE: VF <- bit 7 of vx, then V[X] <- vx << 1 (rule R190). -/
def execShl (x : RegIx) (s : State) : Host.Outcome State Fault Refusal :=
  .next ((s.setV vf (highBitFlag (s.v x))).setV x (s.v x <<< 1))

/-- CXNN: V[X] <- RandomByte() & NN, the byte being a free value (rule R191, log entry 5). -/
def execRnd (x : RegIx) (nn : Byte) (s : State) : Host.Outcome State Fault Refusal :=
  .next (s.countDraw.setV x (s.drawByte &&& nn))

end Sys2Proof.Machine
end

