-- ==== Sys2Proof/Machine/Control.lean ====
section
/-! DEFINITION. Control transfer (spec/41_control_transfer.md). pc on entry is the instruction's address + 2. -/

namespace Sys2Proof.Machine

/-- 0NNN: pc <- zext_16(NNN) (rule R140). -/
def execSys (nnn : Addr12) (s : State) : Host.Outcome State Fault Refusal := .next (s.setPc (zextAddr nnn))

/-- 00EE: pc <- pop() (rule R141). -/
def execRet (s : State) : Host.Outcome State Fault Refusal :=
  (popInto (fun w t => .done (t.setPc w)) s).outcome

/-- 1NNN: pc <- zext_16(NNN) (rule R142). -/
def execJp (nnn : Addr12) (s : State) : Host.Outcome State Fault Refusal := .next (s.setPc (zextAddr nnn))

/-- 2NNN: push(pc); pc <- zext_16(NNN) (rule R143). -/
def execCall (nnn : Addr12) (s : State) : Host.Outcome State Fault Refusal :=
  ((push s.pc s).andThen fun t => .done (t.setPc (zextAddr nnn))).outcome

/-- BNNN: pc <- V0 + NNN, exact (rule R144). -/
def execJpV0 (nnn : Addr12) (s : State) : Host.Outcome State Fault Refusal :=
  .next (s.setPc (jumpV0Target (s.v 0x0#4) nnn))

end Sys2Proof.Machine
end

