-- ==== Sys2Proof/Machine/Display.lean ====
section
/-! DEFINITION. The framebuffer instructions (spec/45_display.md). -/

namespace Sys2Proof.Machine

/-- 00E0: every pixel 0, DIRTY 1 (rule R250). -/
def execCls (s : State) : Host.Outcome State Fault Refusal := .next (s.clearPixels.setDirty true)

/-- One set bit of a sprite: VF <- 1 if the pixel is set, the pixel is toggled, DIRTY <- 1 (rule R251). -/
def drawBit (px py : Nat) (s : State) : State :=
  ((if s.pixel px py then s.setV vf (flagByte true) else s).togglePixel px py).setDirty true

/-- One row of a sprite: its bits from the most significant, column 0 first (rule R251). -/
def drawRow (x0 y : Nat) (b : Byte) (s : State) : State :=
  (List.range 8).foldl
    (fun t col => if b.getLsbD (7 - col) then drawBit (clampX (x0 + col)) (clampY y) t else t) s

/-- DXYN: the origin and I are read first, VF <- 0, then the rows from the first, each byte read from memory as its row is
drawn (rule R251). -/
def execDrw (x y : RegIx) (n : Nibble) (s : State) : Host.Outcome State Fault Refusal :=
  Effect.outcome
    (Effect.forEach
      (fun row => readInto (s.dataAddr row) fun b t => .done (drawRow (s.v x).toNat ((s.v y).toNat + row) b t))
      (List.range n.toNat) (s.setV vf (flagByte false)))

end Sys2Proof.Machine
end

