-- ==== Sys2Proof/Machine/Index.lean ====
section
/-! DEFINITION. The index register and memory transfers (spec/44_index_memory.md). -/

namespace Sys2Proof.Machine

/-- ANNN: I <- zext_16(NNN) (rule R220). -/
def execLdI (nnn : Addr12) (s : State) : Host.Outcome State Fault Refusal := .next (s.setI (zextAddr nnn))

/-- FX1E: I <- I + V[X], an error when the exact sum exceeds 0xFFFF (rule R221). -/
def execAddI (x : RegIx) (s : State) : Host.Outcome State Fault Refusal :=
  let sum := s.i.toNat + (s.v x).toNat
  Effect.outcome
    (if sum > 0xFFFF then .raised (.outOfBoundsAccess sum) s else .done (s.setI (BitVec.ofNat 16 sum)))

/-- FX29: I <- FONT_BASE + V[X] * 5 (rule R222). -/
def execLdF (x : RegIx) (s : State) : Host.Outcome State Fault Refusal := .next (s.setI (glyphAddr s.params (s.v x)))

/-- FX33: the three decimal digits of V[X] to I, I+1, I+2 (rule R223). -/
def execLdBcd (x : RegIx) (s : State) : Host.Outcome State Fault Refusal :=
  Effect.outcome
    (((memWrite (s.dataAddr 0) (hundreds (s.v x)) s).andThen
      (memWrite (s.dataAddr 1) (tens (s.v x)))).andThen
      (memWrite (s.dataAddr 2) (units (s.v x))))

/-- FX55: V0..V[X] to memory from I, then I <- base + X + 1 (rule R224). -/
def execLdMemVx (x : RegIx) (s : State) : Host.Outcome State Fault Refusal :=
  Effect.outcome
    ((Effect.forEach (fun k t => memWrite (s.dataAddr k) (t.v (regOf k)) t) (regRange x) s).andThen
      fun t => .done (t.setI (indexAfter s.i x)))

/-- FX65: memory from I to V0..V[X], then I <- base + X + 1 (rule R225). -/
def execLdVxMem (x : RegIx) (s : State) : Host.Outcome State Fault Refusal :=
  Effect.outcome
    ((Effect.forEach (fun k => readInto (s.dataAddr k) fun b t => .done (t.setV (regOf k) b)) (regRange x) s).andThen
      fun t => .done (t.setI (indexAfter s.i x)))

end Sys2Proof.Machine
end

