-- ==== Sys2Proof/Machine/KeypadTimers.lean ====
section
/-! DEFINITION. Keypad and timer instructions (spec/46_timers_keypad.md). -/

namespace Sys2Proof.Machine

/-- EX9E: skip if a key is pressed and the lowest one is V[X] (rule R270). -/
def execSkp (x : RegIx) (s : State) : Host.Outcome State Fault Refusal := .next (s.skipIf (s.pressedKey == some (s.v x)))

/-- EXA1: skip if no key is pressed or the lowest one is not V[X] (rule R271). -/
def execSknp (x : RegIx) (s : State) : Host.Outcome State Fault Refusal := .next (s.skipIf (s.pressedKey != some (s.v x)))

/-- FX07: V[X] <- DT (rule R272). -/
def execLdVxDt (x : RegIx) (s : State) : Host.Outcome State Fault Refusal := .next (s.setV x s.dt)

/-- FX0A: V[X] <- the lowest pressed key, or pc <- pc - 2 when there is none (rule R273). -/
def execLdVxK (x : RegIx) (s : State) : Host.Outcome State Fault Refusal :=
  .next (match s.pressedKey with
    | none => s.setPc (s.pc - 2#16)
    | some k => s.setV x k)

/-- FX15: DT <- V[X] (rule R274). -/
def execLdDtVx (x : RegIx) (s : State) : Host.Outcome State Fault Refusal := .next (s.setDt (s.v x))

/-- FX18: ST <- V[X] (rule R275). -/
def execLdStVx (x : RegIx) (s : State) : Host.Outcome State Fault Refusal := .next (s.setSt (s.v x))

end Sys2Proof.Machine
end

