-- ==== Sys2Proof/Machine/Skips.lean ====
section
/-! DEFINITION. Conditional skips on registers (spec/42_skips.md). -/

namespace Sys2Proof.Machine

/-- 3XNN: skip if V[X] = NN (rule R161). -/
def execSeImm (x : RegIx) (nn : Byte) (s : State) : Host.Outcome State Fault Refusal := .next (s.skipIf (s.v x == nn))

/-- 4XNN: skip if V[X] is not NN (rule R162). -/
def execSneImm (x : RegIx) (nn : Byte) (s : State) : Host.Outcome State Fault Refusal := .next (s.skipIf (s.v x != nn))

/-- 5XY0: skip if V[X] = V[Y] (rule R163). -/
def execSeReg (x y : RegIx) (s : State) : Host.Outcome State Fault Refusal := .next (s.skipIf (s.v x == s.v y))

/-- 9XY0: skip if V[X] is not V[Y] (rule R164). -/
def execSneReg (x y : RegIx) (s : State) : Host.Outcome State Fault Refusal := .next (s.skipIf (s.v x != s.v y))

end Sys2Proof.Machine
end

