-- ==== Sys2Proof/Machine/Executor.lean ====
section
/-! DEFINITION. One call of step(): the fetch-decode-execute cycle (spec/40_execution_cycle.md rules R120 to R126). -/

namespace Sys2Proof.Machine

/-- The execute phase of what was decoded; the fetch increment has been made. -/
def runDecoded (r : Decoded) (op : Word) (s : State) : Host.Outcome State Fault Refusal :=
  match r with
  | .instr i => exec i s
  | .noOp => .next s
  | .unimplemented => .next (takeError (.unimplementedOpcode op) s)

/-- One call of step(): fetch, fetch increment, decode, execute in status RUNNING; nothing changes in FAULTED; refused in
UNRESET (rules R34, R120 and R126). -/
def executorStep (s : State) : Host.Outcome State Fault Refusal :=
  match s.status with
  | .unreset => .refused .calledBeforeReset
  | .faulted _ => .next s
  | .running =>
    match fetch s with
    | .error e => .next (takeError e s)
    | .ok op => runDecoded (decode s.params.decode op) op s.advancePc

end Sys2Proof.Machine
end

