-- ==== Sys2Proof/Machine/Step.lean ====
section
/-! DEFINITION. One transition of the machine (spec/40_execution_cycle.md rule R120, spec/60_exceptions.md rule R320): the
agent whose turn it is moves once. -/

namespace Sys2Proof.Machine

/-- One transition of the machine: the agent whose turn it is moves, the turn taken (log entry 6). -/
def step (s : State) : Host.Outcome State Fault Refusal :=
  match s.turn with
  | none => executorStep s.dropTurn
  | some e => eventState (perform e s.dropTurn)

/-- `s` with the instruction of a table word placed so that the very next step runs it. -/
def State.withFetchWord (s : State) (nbits w : Nat) : State := s.placeOpcode (tableOpcode nbits w)

end Sys2Proof.Machine
end

