-- ==== Sys2Proof/Safety.lean ====
section
/-! DEFINITION. The terms claims use: what an instruction leaves unchanged, what holds of every state a run reaches, what
the executor fetches, and the pixels a sprite reaches. -/

namespace Sys2Proof.Machine

/-! ### Frames -/

/-- What may differ after a transition; everything not named here is unchanged. -/
structure Writes where
  regs   : List RegIx := []
  i      : Bool := false
  pc     : Bool := false
  stack  : Bool := false
  dt     : Bool := false
  st     : Bool := false
  pixels : Bool := false
  dirty  : Bool := false
  key    : Bool := false
  mem    : List Nat := []
  status : Bool := false
  draws  : Bool := false
deriving DecidableEq, Repr

/-- `t` differs from `s` at most in what `w` names: every other register, every other byte of memory and every other
piece of state is the same, and the parameters and the agenda always are. -/
def Unchanged (w : Writes) (s t : State) : Prop :=
  (∀ r, r ∉ w.regs → t.v r = s.v r) ∧ (w.i = false → t.i = s.i) ∧ (w.pc = false → t.pc = s.pc) ∧
  (w.stack = false → t.stack = s.stack) ∧ (w.dt = false → t.dt = s.dt) ∧ (w.st = false → t.st = s.st) ∧
  (w.pixels = false → ∀ x y, t.pixel x y = s.pixel x y) ∧ (w.dirty = false → t.dirty = s.dirty) ∧
  (w.key = false → t.key = s.key) ∧ (∀ a, a ∉ w.mem → t.byteAt a = s.byteAt a) ∧
  (w.status = false → t.status = s.status) ∧ (w.draws = false → t.draws = s.draws) ∧
  t.params = s.params ∧ t.agenda = s.agenda

/-- Taking the error `e` and nothing more. -/
def TookError (e : Error) (s t : State) : Prop := t.status = .faulted e ∧ Unchanged { status := true } s t

/-! ### What the executor fetches -/

/-- The opcode that memory holds at pc: the byte at the lower address is the high one (spec/20_memory.md rule R63). -/
def State.opcodeAtPc (s : State) : Word := s.byteAt s.pc.toNat ++ s.byteAt (s.pc.toNat + 1)

/-- A run is safe as long as the core is in session and no error has ended it. -/
def State.safe (s : State) : Bool := s.status == .running

/-! ### The invariant -/

/-- The stack holds no more than STACK_DEPTH entries. -/
def State.stackBounded (s : State) : Bool :=
  match s.params.stackDepth with
  | none => true
  | some n => decide (s.stack.length ≤ n)

/-- What holds of every state: memory is in its canonical form inside 4096 bytes, pc is at most 0x10FE (the largest
jump target, spec/41_control_transfer.md rule R144), every stack entry is at most 0x1000 (a CALL at 0xFFE, rule R143) and
the stack keeps its depth. -/
def State.inv (s : State) : Bool :=
  Memory.wf s.params.unlisted s.mem && decide (s.pc.toNat ≤ 0x10FE) && s.stack.all (fun w => decide (w.toNat ≤ 0x1000))
    && s.stackBounded

/-! ### Sprites -/

/-- The pixels that the set bits of a sprite reach, in the order they are toggled: rows from the first, bits from the most
significant, every sum exact and then clamped (spec/45_display.md rule R251). -/
def State.spritePixels (s : State) (x y : RegIx) (n : Nibble) : List (Nat × Nat) :=
  (List.range n.toNat).flatMap fun row =>
    ((List.range 8).filter fun col => (s.byteAt (s.i.toNat + row)).getLsbD (7 - col)).map fun col =>
      (min ((s.v x).toNat + col) 63, min ((s.v y).toNat + row) 31)

/-- How often a list of toggles reaches a pixel. -/
def hits (l : List (Nat × Nat)) (x y : Nat) : Nat := l.count (x, y)

/-- Whether a list of toggles, started on the pixels of `s`, ever turns a set pixel off. -/
def collides (s : State) (l : List (Nat × Nat)) : Prop :=
  ∃ before x y after, l = before ++ (x, y) :: after ∧ (s.pixel x y ^^ decide (hits before x y % 2 = 1)) = true

end Sys2Proof.Machine
end

