-- ==== Sys2Proof/Certificates/Slice0/Obligations.lean ====
section
/-! DEFINITION. What is stated about the model. exec is the execute phase: pc on entry is the instruction's address + 2. -/

open Sys2Proof Sys2Proof.Machine

/-! ### Decoding and encoding (spec/30_encoding.md) -/

/-- Under every value of the two decoding parameters, the opcode of a well-formed instruction decodes to it, with every
operand. -/
def Obligations.DecodeOfEncodeIsTheInstruction : Prop :=
  ∀ (d : DecodeParams) (i : Instr), i.wf d = true → decode d (encode i) = .instr i

/-- Under FAMILY0_DECODE = EXACT, an instruction that an opcode decodes to is well formed and encodes to that opcode: no
bit of it is dropped. -/
def Obligations.EncodeOfDecodeIsTheOpcode : Prop :=
  ∀ (low : LowNib59) (op : Word) (i : Instr), decode ⟨.exact, low⟩ op = .instr i →
    encode i = op ∧ i.wf ⟨.exact, low⟩ = true

/-- Under LOWNIB_59 = IGNORE the words without a handler are exactly those of families 8, E and F that rule R96 lists.
(That 5XYn and 9XYn are not among them is decision D13.) -/
def Obligations.WordsWithoutHandler : Prop :=
  ∀ (f : Family0Decode) (op : Word), decode ⟨f, .ignore⟩ op = .unimplemented ↔
    (op.extractLsb' 12 4 = 0x8#4 ∧ op.extractLsb' 0 4 ∈ [0x8#4, 0x9#4, 0xA#4, 0xB#4, 0xC#4, 0xD#4, 0xF#4]) ∨
    (op.extractLsb' 12 4 = 0xE#4 ∧ op.extractLsb' 0 8 ∉ [0x9E#8, 0xA1#8]) ∨
    (op.extractLsb' 12 4 = 0xF#4 ∧
      op.extractLsb' 0 8 ∉ [0x07#8, 0x0A#8, 0x15#8, 0x18#8, 0x1E#8, 0x29#8, 0x33#8, 0x55#8, 0x65#8])

/-- Family 0 under both values of FAMILY0_DECODE, which is the spec's own decision D12. -/
def Obligations.FamilyZeroReadings : Prop :=
  ∀ (low : LowNib59) (nnn : Addr12),
    decode ⟨.exact, low⟩ (0x0#4 ++ nnn)
      = .instr (if nnn = 0x0E0#12 then .cls else if nnn = 0x0EE#12 then .ret else .sys nnn) ∧
    decode ⟨.lowByte, low⟩ (0x0#4 ++ nnn)
      = .instr (if nnn.toNat % 256 = 0xE0 then .cls else if nnn.toNat % 256 = 0xEE then .ret else .sys nnn)

/-- Families 5 and 9 under the three values of LOWNIB_59, which is the spec's own decision D13. -/
def Obligations.LowNibblePolicies : Prop :=
  ∀ (f : Family0Decode) (x y : RegIx) (n : Nibble),
    decode ⟨f, .ignore⟩ (0x5#4 ++ x ++ y ++ n) = .instr (.seReg x y n) ∧
    decode ⟨f, .ignore⟩ (0x9#4 ++ x ++ y ++ n) = .instr (.sneReg x y n) ∧
    decode ⟨f, .nop⟩ (0x5#4 ++ x ++ y ++ n) = (if n = 0#4 then .instr (.seReg x y n) else .noOp) ∧
    decode ⟨f, .nop⟩ (0x9#4 ++ x ++ y ++ n) = (if n = 0#4 then .instr (.sneReg x y n) else .noOp) ∧
    decode ⟨f, .fault⟩ (0x5#4 ++ x ++ y ++ n) = (if n = 0#4 then .instr (.seReg x y n) else .unimplemented) ∧
    decode ⟨f, .fault⟩ (0x9#4 ++ x ++ y ++ n) = (if n = 0#4 then .instr (.sneReg x y n) else .unimplemented)

/-- One word of each family, written out bit by bit from the patterns of rule R95. -/
def Obligations.SampleWordsDecode : Prop :=
  decode DecodeParams.default 0b0000000011101110#16 = .instr .ret ∧
  decode DecodeParams.default 0b0011000000000000#16 = .instr (.seImm 0x0#4 0x00#8) ∧
  decode DecodeParams.default 0b1000001001010110#16 = .instr (.shr 0x2#4 0x5#4) ∧
  decode DecodeParams.default 0b1111010100110011#16 = .instr (.ldBcd 0x5#4) ∧
  decode DecodeParams.default 0b1101000000010010#16 = .instr (.drw 0x0#4 0x1#4 0x2#4) ∧
  decode DecodeParams.default 0b1110000110011110#16 = .instr (.skp 0x1#4)

/-! ### The step (spec/40_execution_cycle.md) -/

/-- Where the executor moves next, the machine runs and the opcode at pc decodes to an instruction, a step is that
instruction's execute phase on the state with pc advanced by 2 and the turn taken. -/
def Obligations.StepRunsTheDecodedInstruction : Prop :=
  ∀ (s : State) (i : Instr), s.turn = none → s.status = .running → s.pc.toNat ≤ 0xFFE →
    decode s.params.decode s.opcodeAtPc = .instr i →
    step s = exec i { s with pc := BitVec.ofNat 16 (s.pc.toNat + 2), agenda := s.agenda.drop }

/-- A fetch above 0xFFE raises OutOfBoundsAccess with the first address out of range and changes nothing else: pc is not
advanced. The status is the spec's decision D16, the rule is marked as derived. -/
def Obligations.FetchOutsideMemoryFaults : Prop :=
  ∀ (s : State), s.turn = none → s.status = .running → 0xFFE < s.pc.toNat →
    ∃ t, step s = .next t ∧
      TookError (.outOfBoundsAccess (if s.pc.toNat = 0xFFF then 0x1000 else s.pc.toNat)) s.dropTurn t

/-- An opcode without a handler raises UnimplementedOpcode with the opcode, after the fetch increment and with no other
write. The status is the spec's decision D16, the rule is marked as derived. -/
def Obligations.UnhandledOpcodeFaults : Prop :=
  ∀ (s : State), s.turn = none → s.status = .running → s.pc.toNat ≤ 0xFFE →
    decode s.params.decode s.opcodeAtPc = .unimplemented →
    ∃ t, step s = .next t ∧ t.status = .faulted (.unimplementedOpcode s.opcodeAtPc) ∧
      t.pc.toNat = s.pc.toNat + 2 ∧ Unchanged { pc := true, status := true } s.dropTurn t

/-- Under LOWNIB_59 = NOP (decision D13) a 5XYn or 9XYn with n other than 0 only advances pc. -/
def Obligations.NopWordOnlyAdvancesPc : Prop :=
  ∀ (s : State), s.turn = none → s.status = .running → s.pc.toNat ≤ 0xFFE →
    s.params.decode.lowNib59 = .nop → s.opcodeAtPc.extractLsb' 12 4 ∈ [0x5#4, 0x9#4] →
    s.opcodeAtPc.extractLsb' 0 4 ≠ 0#4 →
    ∃ t, step s = .next t ∧ t.pc.toNat = s.pc.toNat + 2 ∧ Unchanged { pc := true } s.dropTurn t

/-- In FAULTED(e) a call of step() returns e and changes nothing (decision D16). -/
def Obligations.FaultedStepChangesNothing : Prop :=
  ∀ (s : State) (e : Error), s.turn = none → s.status = .faulted e →
    step s = .next s.dropTurn ∧ s.dropTurn.stepResult = .error e

/-- Before the first successful reset step(), read_pixel and take_dirty_flag are refused (decision D23), read_pixel for
every index: that it is refused with an index out of range too is the model's choice (log entry 16). -/
def Obligations.CallsBeforeResetAreRefused : Prop :=
  ∀ (s : State), s.status = .unreset →
    (s.turn = none → step s = .refused .calledBeforeReset) ∧
    (∀ x y, s.turn = some (.readPixel x y) → step s = .refused .calledBeforeReset) ∧
    (s.turn = some .takeDirtyFlag → step s = .refused .calledBeforeReset)

/-! ### Control transfer (spec/41_control_transfer.md) -/

/-- SYS and JP: pc becomes NNN, nothing else changes; after a jump to 0xFFF the next fetch is out of bounds. -/
def Obligations.SysAndJpJumpToNNN : Prop :=
  ∀ (d : DecodeParams) (nnn : Addr12) (s : State),
    (d.family0 = .exact → nnn ≠ 0x0E0#12 → nnn ≠ 0x0EE#12 → decode d (0x0#4 ++ nnn) = .instr (.sys nnn)) ∧
    decode d (0x1#4 ++ nnn) = .instr (.jp nnn) ∧
    (∃ t, exec (.sys nnn) s = .next t ∧ t.pc.toNat = nnn.toNat ∧ Unchanged { pc := true } s t ∧
      (nnn = 0xFFF#12 → fetch t = .error (.outOfBoundsAccess 0x1000))) ∧
    (∃ t, exec (.jp nnn) s = .next t ∧ t.pc.toNat = nnn.toNat ∧ Unchanged { pc := true } s t ∧
      (nnn = 0xFFF#12 → fetch t = .error (.outOfBoundsAccess 0x1000)))

/-- RET: pc becomes the most recently pushed entry, unmasked, which leaves the stack, and where it is above 0xFFE the next
fetch is out of bounds; an empty stack raises StackUnderflow and nothing else changes. -/
def Obligations.RetPopsTheStack : Prop :=
  ∀ (d : DecodeParams) (s : State),
    decode d 0x00EE#16 = .instr .ret ∧
    (∀ w rest, s.stack = w :: rest →
      ∃ t, exec .ret s = .next t ∧ t.pc = w ∧ t.stack = rest ∧ Unchanged { pc := true, stack := true } s t ∧
        (0xFFE < w.toNat → fetch t = .error (.outOfBoundsAccess (max w.toNat 0x1000)))) ∧
    (s.stack = [] → ∃ t, exec .ret s = .next t ∧ TookError .stackUnderflow s t)

/-- CALL: pc, the address after the CALL, is pushed and pc becomes NNN; a stack that already holds STACK_DEPTH entries
raises StackOverflow before anything changes; an unbounded stack never does. -/
def Obligations.CallPushesThePc : Prop :=
  ∀ (d : DecodeParams) (nnn : Addr12) (s : State),
    decode d (0x2#4 ++ nnn) = .instr (.call nnn) ∧
    ((s.params.stackDepth = none ∨ ∃ n, s.params.stackDepth = some n ∧ s.stack.length < n) →
      ∃ t, exec (.call nnn) s = .next t ∧ t.stack = s.pc :: s.stack ∧ t.pc.toNat = nnn.toNat ∧
        Unchanged { pc := true, stack := true } s t) ∧
    (∀ n, s.params.stackDepth = some n → n ≤ s.stack.length →
      ∃ t, exec (.call nnn) s = .next t ∧ TookError .stackOverflow s t)

/-- A subroutine that hands the stack back as it got it returns to the instruction after its CALL. -/
def Obligations.SubroutineReturnsAfterItsCall : Prop :=
  ∀ (nnn : Addr12) (s t u : State), s.stackFull = false → exec (.call nnn) s = .next t → u.stack = t.stack →
    ∃ w, exec .ret u = .next w ∧ w.pc = s.pc ∧ w.stack = s.stack ∧ Unchanged { pc := true, stack := true } u w

/-- JP V0: pc becomes the exact sum of V0 and NNN, above 0xFFF too; where it is above 0xFFE the next fetch is out of
bounds. -/
def Obligations.JpV0AddsExactly : Prop :=
  ∀ (d : DecodeParams) (nnn : Addr12) (s : State),
    decode d (0xB#4 ++ nnn) = .instr (.jpV0 nnn) ∧
    ∃ t, exec (.jpV0 nnn) s = .next t ∧ t.pc.toNat = (s.v 0x0#4).toNat + nnn.toNat ∧
      Unchanged { pc := true } s t ∧
      (0xFFE < (s.v 0x0#4).toNat + nnn.toNat →
        fetch t = .error (.outOfBoundsAccess (max ((s.v 0x0#4).toNat + nnn.toNat) 0x1000)))

/-! ### Skips (spec/42_skips.md) -/

/-- SE and SNE with a byte: pc goes up by 2 when the condition holds, and nothing else changes. -/
def Obligations.SkipsOnAByte : Prop :=
  ∀ (d : DecodeParams) (x : RegIx) (nn : Byte) (s : State),
    decode d (0x3#4 ++ x ++ nn) = .instr (.seImm x nn) ∧ decode d (0x4#4 ++ x ++ nn) = .instr (.sneImm x nn) ∧
    (∃ t, exec (.seImm x nn) s = .next t ∧ t.pc = (if s.v x = nn then s.pc + 2#16 else s.pc) ∧
      Unchanged { pc := true } s t) ∧
    (∃ t, exec (.sneImm x nn) s = .next t ∧ t.pc = (if s.v x = nn then s.pc else s.pc + 2#16) ∧
      Unchanged { pc := true } s t)

/-- SE and SNE with a register, in the canonical form and with every low nibble that the parameters let decode. -/
def Obligations.SkipsOnARegister : Prop :=
  ∀ (d : DecodeParams) (x y : RegIx) (n : Nibble) (s : State),
    (n = 0#4 ∨ d.lowNib59 = .ignore → decode d (0x5#4 ++ x ++ y ++ n) = .instr (.seReg x y n) ∧
      decode d (0x9#4 ++ x ++ y ++ n) = .instr (.sneReg x y n)) ∧
    (n ≠ 0#4 → d.lowNib59 = .fault → decode d (0x5#4 ++ x ++ y ++ n) = .unimplemented ∧
      decode d (0x9#4 ++ x ++ y ++ n) = .unimplemented) ∧
    (∃ t, exec (.seReg x y n) s = .next t ∧ t.pc = (if s.v x = s.v y then s.pc + 2#16 else s.pc) ∧
      Unchanged { pc := true } s t) ∧
    (∃ t, exec (.sneReg x y n) s = .next t ∧ t.pc = (if s.v x = s.v y then s.pc else s.pc + 2#16) ∧
      Unchanged { pc := true } s t)

/-! ### Loads and arithmetic (spec/43_register_alu.md) -/

/-- LD Vx, nn and LD Vx, Vy. -/
def Obligations.LoadsOfARegister : Prop :=
  ∀ (d : DecodeParams) (x y : RegIx) (nn : Byte) (s : State),
    decode d (0x6#4 ++ x ++ nn) = .instr (.ldImm x nn) ∧ decode d (0x8#4 ++ x ++ y ++ 0x0#4) = .instr (.ldReg x y) ∧
    (∃ t, exec (.ldImm x nn) s = .next t ∧ t.v x = nn ∧ Unchanged { regs := [x] } s t) ∧
    (∃ t, exec (.ldReg x y) s = .next t ∧ t.v x = s.v y ∧ Unchanged { regs := [x] } s t)

/-- ADD Vx, nn: the sum modulo 256, and VF is not written, unless X is F. -/
def Obligations.AddImmWrapsWithoutFlag : Prop :=
  ∀ (d : DecodeParams) (x : RegIx) (nn : Byte) (s : State),
    decode d (0x7#4 ++ x ++ nn) = .instr (.addImm x nn) ∧
    ∃ t, exec (.addImm x nn) s = .next t ∧ (t.v x).toNat = ((s.v x).toNat + nn.toNat) % 256 ∧
      Unchanged { regs := [x] } s t

/-- OR, AND and XOR, bit by bit; VF is not reset. -/
def Obligations.LogicBitByBit : Prop :=
  ∀ (d : DecodeParams) (x y : RegIx) (s : State),
    decode d (0x8#4 ++ x ++ y ++ 0x1#4) = .instr (.orReg x y) ∧
    decode d (0x8#4 ++ x ++ y ++ 0x2#4) = .instr (.andReg x y) ∧
    decode d (0x8#4 ++ x ++ y ++ 0x3#4) = .instr (.xorReg x y) ∧
    (∃ t, exec (.orReg x y) s = .next t ∧ (∀ k, (t.v x).getLsbD k = ((s.v x).getLsbD k || (s.v y).getLsbD k)) ∧
      Unchanged { regs := [x] } s t) ∧
    (∃ t, exec (.andReg x y) s = .next t ∧ (∀ k, (t.v x).getLsbD k = ((s.v x).getLsbD k && (s.v y).getLsbD k)) ∧
      Unchanged { regs := [x] } s t) ∧
    (∃ t, exec (.xorReg x y) s = .next t ∧ (∀ k, (t.v x).getLsbD k = ((s.v x).getLsbD k ^^ (s.v y).getLsbD k)) ∧
      Unchanged { regs := [x] } s t)

/-- ADD Vx, Vy: the sum modulo 256 and the carry in VF; with X = F the carry stands. -/
def Obligations.AddRegSumAndCarry : Prop :=
  ∀ (d : DecodeParams) (x y : RegIx) (s : State),
    decode d (0x8#4 ++ x ++ y ++ 0x4#4) = .instr (.addReg x y) ∧
    ∃ t, exec (.addReg x y) s = .next t ∧
      t.v vf = (if (s.v x).toNat + (s.v y).toNat > 0xFF then 0x01#8 else 0x00#8) ∧
      (x ≠ vf → (t.v x).toNat = ((s.v x).toNat + (s.v y).toNat) % 256) ∧ Unchanged { regs := [x, vf] } s t

/-- SUB Vx, Vy: the difference modulo 256 and the not-borrow in VF; with X = F the difference stands. -/
def Obligations.SubDifferenceAndNotBorrow : Prop :=
  ∀ (d : DecodeParams) (x y : RegIx) (s : State),
    decode d (0x8#4 ++ x ++ y ++ 0x5#4) = .instr (.sub x y) ∧
    ∃ t, exec (.sub x y) s = .next t ∧ (t.v x).toNat = (256 + (s.v x).toNat - (s.v y).toNat) % 256 ∧
      (x ≠ vf → t.v vf = (if (s.v x).toNat < (s.v y).toNat then 0x00#8 else 0x01#8)) ∧
      Unchanged { regs := [x, vf] } s t

/-- SHR Vx: half of V[X], bit 0 in VF, whatever Y is; with X = F the shifted value stands. -/
def Obligations.ShrHalvesAndKeepsTheLowBit : Prop :=
  ∀ (d : DecodeParams) (x y : RegIx) (s : State),
    decode d (0x8#4 ++ x ++ y ++ 0x6#4) = .instr (.shr x y) ∧
    ∃ t, exec (.shr x y) s = .next t ∧ (t.v x).toNat = (s.v x).toNat / 2 ∧
      (x ≠ vf → (t.v vf).toNat = (s.v x).toNat % 2) ∧ Unchanged { regs := [x, vf] } s t

/-- SUBN Vx, Vy: the difference the other way round, the not-borrow in VF; with X = F the difference stands. -/
def Obligations.SubnDifferenceAndNotBorrow : Prop :=
  ∀ (d : DecodeParams) (x y : RegIx) (s : State),
    decode d (0x8#4 ++ x ++ y ++ 0x7#4) = .instr (.subn x y) ∧
    ∃ t, exec (.subn x y) s = .next t ∧ (t.v x).toNat = (256 + (s.v y).toNat - (s.v x).toNat) % 256 ∧
      (x ≠ vf → t.v vf = (if (s.v x).toNat > (s.v y).toNat then 0x00#8 else 0x01#8)) ∧
      Unchanged { regs := [x, vf] } s t

/-- SHL Vx: twice V[X] modulo 256, bit 7 in VF, whatever Y is; with X = F the shifted value stands. -/
def Obligations.ShlDoublesAndKeepsTheHighBit : Prop :=
  ∀ (d : DecodeParams) (x y : RegIx) (s : State),
    decode d (0x8#4 ++ x ++ y ++ 0xE#4) = .instr (.shl x y) ∧
    ∃ t, exec (.shl x y) s = .next t ∧ (t.v x).toNat = (s.v x).toNat * 2 % 256 ∧
      (x ≠ vf → (t.v vf).toNat = (s.v x).toNat / 128) ∧ Unchanged { regs := [x, vf] } s t

/-- RND Vx, nn: the drawn byte, a free value, masked by NN; the next RND draws the next byte. That the byte is the free
value of a count of draws is the model's choice (log entry 5, decision D21). -/
def Obligations.RndMasksTheDraw : Prop :=
  ∀ (d : DecodeParams) (x : RegIx) (nn : Byte) (s : State),
    decode d (0xC#4 ++ x ++ nn) = .instr (.rnd x nn) ∧
    ∃ t, exec (.rnd x nn) s = .next t ∧
      (∀ k, (t.v x).getLsbD k = ((Config.randomByte s.draws).getLsbD k && nn.getLsbD k)) ∧ t.draws = s.draws + 1 ∧
      Unchanged { regs := [x], draws := true } s t

/-! ### Index register and memory (spec/44_index_memory.md) -/

/-- LD I, nnn. -/
def Obligations.LdILoadsTheAddress : Prop :=
  ∀ (d : DecodeParams) (nnn : Addr12) (s : State),
    decode d (0xA#4 ++ nnn) = .instr (.ldI nnn) ∧
    ∃ t, exec (.ldI nnn) s = .next t ∧ t.i.toNat = nnn.toNat ∧ Unchanged { i := true } s t

/-- ADD I, Vx: the exact sum up to 0xFFFF, with no flag; above it OutOfBoundsAccess with the sum, which is the spec's
decision D3. -/
def Obligations.AddIIsExactOrFaults : Prop :=
  ∀ (d : DecodeParams) (x : RegIx) (s : State),
    decode d (0xF#4 ++ x ++ 0x1E#8) = .instr (.addI x) ∧
    (s.i.toNat + (s.v x).toNat ≤ 0xFFFF →
      ∃ t, exec (.addI x) s = .next t ∧ t.i.toNat = s.i.toNat + (s.v x).toNat ∧ Unchanged { i := true } s t) ∧
    (0xFFFF < s.i.toNat + (s.v x).toNat →
      ∃ t, exec (.addI x) s = .next t ∧ TookError (.outOfBoundsAccess (s.i.toNat + (s.v x).toNat)) s t)

/-- LD F, Vx: FONT_BASE plus five times V[X], V[X] unmasked, exact for every FONT_BASE in its range. -/
def Obligations.LdFPointsAtTheGlyph : Prop :=
  ∀ (d : DecodeParams) (x : RegIx) (s : State),
    decode d (0xF#4 ++ x ++ 0x29#8) = .instr (.ldF x) ∧
    (s.params.wf = true →
      ∃ t, exec (.ldF x) s = .next t ∧ t.i.toNat = s.params.fontBase + (s.v x).toNat * 5 ∧ t.i.toNat ≤ 0x6F6 ∧
        Unchanged { i := true } s t)

/-- The three digits that LD B, Vx stores, most significant first. -/
def bcdDigit (b : Byte) (k : Nat) : Nat :=
  if k = 0 then b.toNat / 100 else if k = 1 then b.toNat / 10 % 10 else b.toNat % 10

/-- LD B, Vx: the three digits at I, I+1, I+2 and no other byte; where an address exceeds 0xFFF the first such address is
reported and the digits before it are stored. That they stand, and the status, are the spec's decision D16. -/
def Obligations.LdBcdStoresThreeDigits : Prop :=
  ∀ (d : DecodeParams) (x : RegIx) (s : State),
    decode d (0xF#4 ++ x ++ 0x33#8) = .instr (.ldBcd x) ∧
    (s.dataAddr 2 ≤ 0xFFF →
      ∃ t, exec (.ldBcd x) s = .next t ∧ (∀ k, k < 3 → (t.byteAt (s.dataAddr k)).toNat = bcdDigit (s.v x) k) ∧
        Unchanged { mem := [s.dataAddr 0, s.dataAddr 1, s.dataAddr 2] } s t) ∧
    (∀ k, k < 3 → 0xFFF < s.dataAddr k → (∀ j, j < k → s.dataAddr j ≤ 0xFFF) →
      ∃ t, exec (.ldBcd x) s = .next t ∧ t.status = .faulted (.outOfBoundsAccess (s.dataAddr k)) ∧
        (∀ j, j < k → (t.byteAt (s.dataAddr j)).toNat = bcdDigit (s.v x) j) ∧
        Unchanged { mem := (List.range k).map s.dataAddr, status := true } s t)

/-- LD [I], Vx: V0..V[X] at I..I+X and no other byte, I goes up by X + 1; where an address exceeds 0xFFF the first such
address is reported, the registers before it are stored and I stays. That the stores before it stand, and the status, are
the spec's decision D16. -/
def Obligations.LdMemVxStoresTheRegisters : Prop :=
  ∀ (d : DecodeParams) (x : RegIx) (s : State),
    decode d (0xF#4 ++ x ++ 0x55#8) = .instr (.ldMemVx x) ∧
    (s.dataAddr x.toNat ≤ 0xFFF →
      ∃ t, exec (.ldMemVx x) s = .next t ∧ (∀ k, k ≤ x.toNat → t.byteAt (s.dataAddr k) = s.v (BitVec.ofNat 4 k)) ∧
        t.i.toNat = s.i.toNat + x.toNat + 1 ∧
        Unchanged { i := true, mem := (List.range (x.toNat + 1)).map s.dataAddr } s t) ∧
    (∀ k, k ≤ x.toNat → 0xFFF < s.dataAddr k → (∀ j, j < k → s.dataAddr j ≤ 0xFFF) →
      ∃ t, exec (.ldMemVx x) s = .next t ∧ t.status = .faulted (.outOfBoundsAccess (s.dataAddr k)) ∧
        (∀ j, j < k → t.byteAt (s.dataAddr j) = s.v (BitVec.ofNat 4 j)) ∧
        Unchanged { mem := (List.range k).map s.dataAddr, status := true } s t)

/-- LD Vx, [I]: the bytes at I..I+X in V0..V[X] and no other register, I goes up by X + 1; where an address exceeds 0xFFF
the first such address is reported, the registers before it are loaded and I stays. That the loads before it stand, and
the status, are the spec's decision D16. -/
def Obligations.LdVxMemLoadsTheRegisters : Prop :=
  ∀ (d : DecodeParams) (x : RegIx) (s : State),
    decode d (0xF#4 ++ x ++ 0x65#8) = .instr (.ldVxMem x) ∧
    (s.dataAddr x.toNat ≤ 0xFFF →
      ∃ t, exec (.ldVxMem x) s = .next t ∧ (∀ k, k ≤ x.toNat → t.v (BitVec.ofNat 4 k) = s.byteAt (s.dataAddr k)) ∧
        t.i.toNat = s.i.toNat + x.toNat + 1 ∧
        Unchanged { i := true, regs := (List.range (x.toNat + 1)).map (BitVec.ofNat 4) } s t) ∧
    (∀ k, k ≤ x.toNat → 0xFFF < s.dataAddr k → (∀ j, j < k → s.dataAddr j ≤ 0xFFF) →
      ∃ t, exec (.ldVxMem x) s = .next t ∧ t.status = .faulted (.outOfBoundsAccess (s.dataAddr k)) ∧
        (∀ j, j < k → t.v (BitVec.ofNat 4 j) = s.byteAt (s.dataAddr j)) ∧
        Unchanged { regs := (List.range k).map (BitVec.ofNat 4), status := true } s t)

/-- A store is seen by the very next fetch: when LD [I], Vx has stored the two bytes at pc, the next opcode is made of the
two registers. -/
def Obligations.StoreIsSeenByTheNextFetch : Prop :=
  ∀ (x : RegIx) (k : Nat) (s t : State), k < x.toNat → s.dataAddr x.toNat ≤ 0xFFF → s.pc.toNat = s.dataAddr k →
    exec (.ldMemVx x) s = .next t →
    fetch t = .ok (s.v (BitVec.ofNat 4 k) ++ s.v (BitVec.ofNat 4 (k + 1)))

/-! ### The framebuffer (spec/45_display.md) -/

/-- CLS: every pixel 0, DIRTY 1, VF and the rest unchanged. -/
def Obligations.ClsClearsEveryPixel : Prop :=
  ∀ (d : DecodeParams) (s : State),
    decode d 0x00E0#16 = .instr .cls ∧
    ∃ t, exec .cls s = .next t ∧ (∀ x y, t.pixel x y = false) ∧ t.dirty = true ∧
      Unchanged { pixels := true, dirty := true } s t

/-- DRW with the whole sprite in memory: a pixel is flipped exactly when the sprite's set bits reach it an odd number of
times, VF says whether one of the toggles turned a set pixel off, DIRTY is set exactly when there was a toggle. Exact sums
and clamping are the spec's decisions D11 and D29. -/
def Obligations.DrwTogglesTheSprite : Prop :=
  ∀ (d : DecodeParams) (x y : RegIx) (n : Nibble) (s : State),
    decode d (0xD#4 ++ x ++ y ++ n) = .instr (.drw x y n) ∧
    ((∀ row, row < n.toNat → s.dataAddr row ≤ 0xFFF) →
      ∃ t, exec (.drw x y n) s = .next t ∧
        (∀ px py, t.pixel px py = (s.pixel px py ^^ decide (hits (s.spritePixels x y n) px py % 2 = 1))) ∧
        (collides s (s.spritePixels x y n) → t.v vf = 0x01#8) ∧
        (¬ collides s (s.spritePixels x y n) → t.v vf = 0x00#8) ∧
        t.dirty = (s.dirty || !(s.spritePixels x y n).isEmpty) ∧
        Unchanged { regs := [vf], pixels := true, dirty := true } s t)

/-- DRW whose row k is the first one outside memory: the rows before it are drawn, the address is reported, I stays.
What stands after a fault is the spec's decision D16. -/
def Obligations.DrwStopsAtTheEndOfMemory : Prop :=
  ∀ (x y : RegIx) (n : Nibble) (k : Nat) (s : State), k < n.toNat → 0xFFF < s.dataAddr k →
    (∀ row, row < k → s.dataAddr row ≤ 0xFFF) →
    ∃ t, exec (.drw x y n) s = .next t ∧ t.status = .faulted (.outOfBoundsAccess (s.dataAddr k)) ∧
      (∀ px py, t.pixel px py
        = (s.pixel px py ^^ decide (hits (s.spritePixels x y (BitVec.ofNat 4 k)) px py % 2 = 1))) ∧
      (collides s (s.spritePixels x y (BitVec.ofNat 4 k)) → t.v vf = 0x01#8) ∧
      (¬ collides s (s.spritePixels x y (BitVec.ofNat 4 k)) → t.v vf = 0x00#8) ∧
      t.dirty = (s.dirty || !(s.spritePixels x y (BitVec.ofNat 4 k)).isEmpty) ∧
      Unchanged { regs := [vf], pixels := true, dirty := true, status := true } s t

/-- The same sprite drawn twice from the same origin restores every pixel; and where every pixel it reaches was 0 and it
has a set bit, the second draw sets VF. The rule is marked as derived. -/
def Obligations.DrawingTwiceRestoresThePixels : Prop :=
  ∀ (x y : RegIx) (n : Nibble) (s t u : State), (∀ row, row < n.toNat → s.dataAddr row ≤ 0xFFF) →
    exec (.drw x y n) s = .next t → t.v x = s.v x → t.v y = s.v y → exec (.drw x y n) t = .next u →
    (∀ px py, u.pixel px py = s.pixel px py) ∧
    ((∀ p ∈ s.spritePixels x y n, s.pixel p.1 p.2 = false) → s.spritePixels x y n ≠ [] → u.v vf = 0x01#8)

/-! ### Keypad and timers (spec/46_timers_keypad.md) -/

/-- pressed_key() is the lowest pressed key, or NONE when no key is pressed; NONE equals no byte. -/
def Obligations.PressedKeyIsTheLowest : Prop :=
  ∀ (s : State),
    (∀ k : Byte, s.pressedKey = some k ↔
      k.toNat < 16 ∧ s.key.getLsbD k.toNat = true ∧ ∀ j, j < k.toNat → s.key.getLsbD j = false) ∧
    (s.pressedKey = none ↔ ∀ j, j < 16 → s.key.getLsbD j = false) ∧
    (s.pressedKey = none → ∀ b : Byte, (s.pressedKey == some b) = false ∧ (s.pressedKey != some b) = true)

/-- SKP skips exactly when the lowest pressed key is V[X], SKNP exactly when SKP does not. Comparing the lowest pressed
key is the spec's decision D14. -/
def Obligations.KeySkipsCompareTheLowestKey : Prop :=
  ∀ (d : DecodeParams) (x : RegIx) (s : State),
    decode d (0xE#4 ++ x ++ 0x9E#8) = .instr (.skp x) ∧ decode d (0xE#4 ++ x ++ 0xA1#8) = .instr (.sknp x) ∧
    ∃ t u, exec (.skp x) s = .next t ∧ exec (.sknp x) s = .next u ∧
      (s.key.getLsbD (s.v x).toNat = true ∧ (∀ j, j < (s.v x).toNat → s.key.getLsbD j = false) →
        t.pc = s.pc + 2#16 ∧ u.pc = s.pc) ∧
      (¬ (s.key.getLsbD (s.v x).toNat = true ∧ ∀ j, j < (s.v x).toNat → s.key.getLsbD j = false) →
        t.pc = s.pc ∧ u.pc = s.pc + 2#16) ∧
      Unchanged { pc := true } s t ∧ Unchanged { pc := true } s u

/-- LD Vx, K: with no key pressed pc goes back by 2 and nothing else changes; else V[X] gets the lowest pressed key. -/
def Obligations.LdVxKWaitsForAKey : Prop :=
  ∀ (d : DecodeParams) (x : RegIx) (s : State),
    decode d (0xF#4 ++ x ++ 0x0A#8) = .instr (.ldVxK x) ∧
    ((∀ j, j < 16 → s.key.getLsbD j = false) →
      ∃ t, exec (.ldVxK x) s = .next t ∧ t.pc = s.pc - 2#16 ∧ Unchanged { pc := true } s t) ∧
    (∀ k, k < 16 → s.key.getLsbD k = true → (∀ j, j < k → s.key.getLsbD j = false) →
      ∃ t, exec (.ldVxK x) s = .next t ∧ (t.v x).toNat = k ∧ Unchanged { regs := [x] } s t)

/-- LD Vx, DT reads the delay timer; LD DT, Vx and LD ST, Vx write the two timers. -/
def Obligations.TimerLoads : Prop :=
  ∀ (d : DecodeParams) (x : RegIx) (s : State),
    decode d (0xF#4 ++ x ++ 0x07#8) = .instr (.ldVxDt x) ∧ decode d (0xF#4 ++ x ++ 0x15#8) = .instr (.ldDtVx x) ∧
    decode d (0xF#4 ++ x ++ 0x18#8) = .instr (.ldStVx x) ∧
    (∃ t, exec (.ldVxDt x) s = .next t ∧ t.v x = s.dt ∧ Unchanged { regs := [x] } s t) ∧
    (∃ t, exec (.ldDtVx x) s = .next t ∧ t.dt = s.v x ∧ Unchanged { dt := true } s t) ∧
    (∃ t, exec (.ldStVx x) s = .next t ∧ t.st = s.v x ∧ Unchanged { st := true } s t)

/-! ### The other agents (spec/60_exceptions.md) -/

/-- A tick of a timer that stands above 0 takes 1 from it; at 0 it loads the restart value under RESTART and leaves 0 under
HOLD (decisions D7 and D8); it writes nothing else, happens in FAULTED too, and does not happen in UNRESET. -/
def Obligations.TicksCountDown : Prop :=
  ∀ (s : State),
    (s.turn = some .delayTick → ∃ t, step s = .next t ∧ Unchanged { dt := true } s.dropTurn t ∧
      (s.status = .unreset → t.dt = s.dt) ∧
      (s.status ≠ .unreset → s.dt ≠ 0#8 → t.dt.toNat = s.dt.toNat - 1) ∧
      (s.status ≠ .unreset → s.dt = 0#8 → s.params.timerZero = .restart → t.dt = s.params.restartDT) ∧
      (s.status ≠ .unreset → s.dt = 0#8 → s.params.timerZero = .hold → t.dt = 0#8)) ∧
    (s.turn = some .soundTick → ∃ t, step s = .next t ∧ Unchanged { st := true } s.dropTurn t ∧
      (s.status = .unreset → t.st = s.st) ∧
      (s.status ≠ .unreset → s.st ≠ 0#8 → t.st.toNat = s.st.toNat - 1) ∧
      (s.status ≠ .unreset → s.st = 0#8 → s.params.timerZero = .restart → t.st = s.params.restartST) ∧
      (s.status ≠ .unreset → s.st = 0#8 → s.params.timerZero = .hold → t.st = 0#8))

/-- set_key_pressed(k) and set_key_released(k) set and clear KEY[k] and change nothing else, in every status. -/
def Obligations.KeyPortsSetAndClear : Prop :=
  ∀ (s : State) (k : Nat), k < 16 →
    (∃ t, perform (.setKeyPressed k) s = .next (.ok, t) ∧ t.key.getLsbD k = true ∧
      (∀ j, j ≠ k → t.key.getLsbD j = s.key.getLsbD j) ∧ Unchanged { key := true } s t) ∧
    (∃ t, perform (.setKeyReleased k) s = .next (.ok, t) ∧ t.key.getLsbD k = false ∧
      (∀ j, j ≠ k → t.key.getLsbD j = s.key.getLsbD j) ∧ Unchanged { key := true } s t)

/-- A press between two steps is what a waiting LD Vx, K sees: a step of the host, then a step of the executor. -/
def Obligations.KeyPressEndsTheWait : Prop :=
  ∀ (s : State) (x : RegIx) (k : Nat), s.status = .running → s.turn = some (.setKeyPressed k) → s.dropTurn.turn = none →
    k < 16 →
    s.key = 0#16 → s.pc.toNat ≤ 0xFFE → s.opcodeAtPc = 0xF#4 ++ x ++ 0x0A#8 →
    ∃ t u, step s = .next t ∧ step t = .next u ∧ (u.v x).toNat = k ∧ u.pc.toNat = s.pc.toNat + 2 ∧
      Unchanged { key := true } s.dropTurn t ∧ Unchanged { regs := [x], pc := true } t.dropTurn u

/-- read_pixel returns the pixel and changes nothing, take_dirty_flag returns DIRTY and clears it, so that a second poll
returns false; both in RUNNING and FAULTED. -/
def Obligations.FramebufferPorts : Prop :=
  ∀ (s : State), s.status ≠ .unreset →
    (∀ x y, x < 64 → y < 32 → perform (.readPixel x y) s = .next (.pixel (s.pixel x y), s)) ∧
    ∃ t, perform .takeDirtyFlag s = .next (.dirtyFlag s.dirty, t) ∧ t.dirty = false ∧
      Unchanged { dirty := true } s t ∧ perform .takeDirtyFlag t = .next (.dirtyFlag false, t)

/-- A host call with an index out of range returns OutOfBoundsAccess with the index and changes nothing (decision D19; that
read_pixel reports x first is the model's choice, log entry 12). -/
def Obligations.HostIndexErrors : Prop :=
  ∀ (s : State) (x y k : Nat),
    (16 ≤ k → perform (.setKeyPressed k) s = .next (.error (.outOfBoundsAccess k), s) ∧
      perform (.setKeyReleased k) s = .next (.error (.outOfBoundsAccess k), s)) ∧
    (s.status ≠ .unreset → 64 ≤ x → perform (.readPixel x y) s = .next (.error (.outOfBoundsAccess x), s)) ∧
    (s.status ≠ .unreset → x < 64 → 32 ≤ y → perform (.readPixel x y) s = .next (.error (.outOfBoundsAccess y), s))

/-! ### Reset (spec/70_reset_and_hazards.md) -/

/-- A successful reset, from every status: registers and I 0, pc 0x200, stack empty, timers DT0 and ST0, pixels and DIRTY 0,
KEY unchanged, status RUNNING, memory the program, the font table and MEM_RESIDUE (decision D17). -/
def Obligations.ResetLoadsTheProgram : Prop :=
  ∀ (s : State) (program : List Byte), program.length ≤ 0xE00 → s.params.wf = true →
    ∃ t, perform (.reset (some program)) s = .next (.ok, t) ∧
      (∀ r, t.v r = 0#8) ∧ t.i = 0#16 ∧ t.pc = 0x200#16 ∧ t.stack = [] ∧ t.dt = s.params.initDT ∧
      t.st = s.params.initST ∧ (∀ x y, t.pixel x y = false) ∧ t.dirty = false ∧ t.key = s.key ∧ t.status = .running ∧
      t.params = s.params ∧
      (∀ k (h : k < program.length), t.byteAt (0x200 + k) = program[k]) ∧
      (∀ k (h : k < s.params.fontData.length), t.byteAt (s.params.fontBase + k) = s.params.fontData[k]) ∧
      (∀ a, (a < s.params.fontBase ∨ s.params.fontBase + s.params.fontData.length ≤ a) →
        (a < 0x200 ∨ 0x200 + program.length ≤ a) → t.byteAt a = residueByte a s.params.residue)

/-- A reset whose image cannot be read returns ProgramLoadError and writes only the status, UNRESET (decision D28); one with
more than 0xE00 bytes is refused (decision D18). -/
def Obligations.ResetThatFails : Prop :=
  ∀ (s : State),
    (∃ t, perform (.reset none) s = .next (.error .programLoadError, t) ∧ t.status = .unreset ∧
      Unchanged { status := true } s t) ∧
    (∀ program : List Byte, 0xE00 < program.length →
      perform (.reset (some program)) s = .refused (.programTooLong program.length))

/-- The state after reset: what the spec gives is stated, and the values the model chose (log entries 1 to 6) are not. -/
def Obligations.ResetState : Prop :=
  (∀ r, State.reset.v r = 0#8) ∧ State.reset.i = 0#16 ∧ State.reset.pc = 0x200#16 ∧ State.reset.stack = [] ∧
  (∀ x y, State.reset.pixel x y = false) ∧ State.reset.dirty = false ∧ State.reset.key = 0#16 ∧
  State.reset.status = .running ∧ State.reset.dt = State.reset.params.initDT ∧ State.reset.st = State.reset.params.initST

/-! ### The whole machine -/

/-- The reset state meets the invariant. -/
def Obligations.ResetMeetsTheInvariant : Prop := State.reset.inv = true

/-- Every transition of every agent keeps the invariant: memory canonical and inside 4096 bytes, pc at most 0x10FE, stack
entries at most 0x1000, the stack within its depth. -/
def Obligations.StepKeepsTheInvariant : Prop :=
  ∀ (s t : State), s.inv = true → step s = .next t → t.inv = true

/-- What each instruction may write, whether it completes or raises: the writers of rules R21 to R30 read as a table.
Everything else is unchanged. -/
def writesOf (s : State) : Instr → Writes
  | .sys _ | .jp _ | .jpV0 _ | .seImm _ _ | .sneImm _ _ | .seReg _ _ _ | .sneReg _ _ _ | .skp _ | .sknp _ => { pc := true }
  | .ret | .call _ => { pc := true, stack := true, status := true }
  | .cls => { pixels := true, dirty := true }
  | .ldImm x _ | .addImm x _ | .ldReg x _ | .orReg x _ | .andReg x _ | .xorReg x _ | .ldVxDt x => { regs := [x] }
  | .addReg x _ | .sub x _ | .shr x _ | .subn x _ | .shl x _ => { regs := [x, vf] }
  | .rnd x _ => { regs := [x], draws := true }
  | .ldI _ | .ldF _ => { i := true }
  | .addI _ => { i := true, status := true }
  | .drw _ _ _ => { regs := [vf], pixels := true, dirty := true, status := true }
  | .ldVxK x => { regs := [x], pc := true }
  | .ldDtVx _ => { dt := true }
  | .ldStVx _ => { st := true }
  | .ldBcd _ => { mem := [s.dataAddr 0, s.dataAddr 1, s.dataAddr 2], status := true }
  | .ldMemVx x => { i := true, mem := (List.range (x.toNat + 1)).map s.dataAddr, status := true }
  | .ldVxMem x => { i := true, regs := (List.range (x.toNat + 1)).map (BitVec.ofNat 4), status := true }

/-- No instruction writes anything but what its row of writesOf names, in any state and on any path. -/
def Obligations.InstructionsWriteOnlyTheirTargets : Prop :=
  ∀ (i : Instr) (s t : State), exec i s = .next t → Unchanged (writesOf s i) s t

/-- Every instruction answers a next state from every state, and the only errors of the execute phase are those rule R302
lists (the rule is marked as derived). -/
def Obligations.ErrorsOfTheExecutePhase : Prop :=
  ∀ (i : Instr) (s : State), ∃ t, exec i s = .next t ∧
    (t.status = s.status ∨
      (i = .ret ∧ t.status = .faulted .stackUnderflow) ∨
      (∃ nnn, i = .call nnn ∧ t.status = .faulted .stackOverflow ∧ s.params.stackDepth ≠ none) ∨
      (∃ a, t.status = .faulted (.outOfBoundsAccess a) ∧ 0xFFF < a ∧
        ((∃ x y n, i = .drw x y n) ∨ (∃ x, i = .ldBcd x) ∨ (∃ x, i = .ldMemVx x) ∨ (∃ x, i = .ldVxMem x))) ∨
      (∃ a x, i = .addI x ∧ t.status = .faulted (.outOfBoundsAccess a) ∧ 0xFFFF < a))

/-- Only a reset leaves FAULTED, and no transition changes a parameter (decision D16; that the parameters stand in the state
is log entry 1). -/
def Obligations.OnlyResetLeavesFaulted : Prop :=
  ∀ (s t : State), step s = .next t →
    t.params = s.params ∧
    ∀ e, s.status = .faulted e → t.status = .faulted e ∨ ∃ image, s.turn = some (.reset image)

/-- The executor's turns never change the keypad latch, and no tick and no call of the host but reset changes memory, a
register, I, pc, the stack, a pixel or the status. -/
def Obligations.AgentsKeepToTheirFields : Prop :=
  ∀ (s t : State), step s = .next t →
    (s.turn = none → t.key = s.key) ∧
    (∀ e, s.turn = some e → (∀ image, e ≠ .reset image) →
      t.mem = s.mem ∧ t.regs = s.regs ∧ t.i = s.i ∧ t.pc = s.pc ∧ t.stack = s.stack ∧ t.fb = s.fb ∧ t.status = s.status)

/-- No instruction reads the sound timer or the dirty flag: two states that differ only there end in states that differ at
most there. -/
def Obligations.SoundTimerAndDirtyFlagAreNotRead : Prop :=
  ∀ (i : Instr) (s : State) (b : Byte) (c : Bool), ∃ t u,
    exec i s = .next t ∧ exec i ((s.setSt b).setDirty c) = .next u ∧
    (u.setSt 0#8).setDirty false = (t.setSt 0#8).setDirty false

/-- A byte written is the byte read back, and no other byte changes; above 0xFFF there is no access. -/
def Obligations.ReadAfterWrite : Prop :=
  ∀ (a : Nat) (b : Byte) (s : State),
    (a ≤ 0xFFF → ∃ t, memWrite a b s = .done t ∧ memRead a t = .ok b ∧ ∀ c, c ≠ a → memRead c t = memRead c s) ∧
    (0xFFF < a → memWrite a b s = .raised (.outOfBoundsAccess a) s ∧ memRead a s = .error (.outOfBoundsAccess a))

/-- Fair runs exist: in session, with a cycle of turns that are the executor's, ticks of either timer and keys pressed or
released, there is an endless run in which every entry of the cycle comes up again and again, each in its place. So the
weak fairness of rule R326, which is the spec's decision D27, can be met; the agenda is the model's choice (log entry 6). -/
def Obligations.FairRunsExist : Prop :=
  ∀ (s : State) (turns : List Turn), s.status ≠ .unreset → s.agenda.next = [] → s.agenda.cycle = turns → turns ≠ [] →
    (∀ t ∈ turns, t = .executor ∨ t = .other .delayTick ∨ t = .other .soundTick ∨
      ∃ k, t = .other (.setKeyPressed k) ∨ t = .other (.setKeyReleased k)) →
    ∃ run : Nat → State, run 0 = s ∧ (∀ n, step (run n) = .next (run (n + 1))) ∧
      (∀ n, turns[n % turns.length]? = some (run n).agenda.head) ∧
      (∀ t ∈ turns, ∀ n, ∃ m, n ≤ m ∧ (run m).agenda.head = t)
end

