-- ==== Sys2Proof/Laws/Decode.lean ====
section
/-! SUPPORT. The fields of a laid out opcode, the opcode laid out again from its fields, and the bytes of an opcode. -/

namespace Sys2Proof

theorem toNat_append_lit {v w : Nat} (a : BitVec v) (b : BitVec w) : (a ++ b).toNat = a.toNat * 2 ^ w + b.toNat := by
  rw [BitVec.toNat_append, ← Nat.shiftLeft_add_eq_or_of_lt b.isLt, Nat.shiftLeft_eq]

theorem toNat_formatA (t : Nibble) (a : Addr12) : (formatA t a).toNat = t.toNat * 4096 + a.toNat :=
  toNat_append_lit t a

theorem toNat_formatRB (t x : Nibble) (nn : Byte) :
    (formatRB t x nn).toNat = (t.toNat * 16 + x.toNat) * 256 + nn.toNat :=
  (toNat_append_lit (t ++ x) nn).trans (by rw [toNat_append_lit] <;> rfl)

theorem toNat_formatRR (t x y n : Nibble) :
    (formatRR t x y n).toNat = ((t.toNat * 16 + x.toNat) * 16 + y.toNat) * 16 + n.toNat :=
  (toNat_append_lit (t ++ x ++ y) n).trans (by rw [toNat_append_lit, toNat_append_lit] <;> rfl)

theorem toNat_opcodeOf (b0 b1 : Byte) : (opcodeOf b0 b1).toNat = b0.toNat * 256 + b1.toNat := toNat_append_lit b0 b1

theorem toNat_opT (op : Word) : (opT op).toNat = op.toNat / 4096 := by
  have := op.isLt
  simp only [opT, BitVec.extractLsb'_toNat, Nat.shiftRight_eq_div_pow]; omega
theorem toNat_opX (op : Word) : (opX op).toNat = op.toNat / 256 % 16 := by
  simp only [opX, BitVec.extractLsb'_toNat, Nat.shiftRight_eq_div_pow]
theorem toNat_opY (op : Word) : (opY op).toNat = op.toNat / 16 % 16 := by
  simp only [opY, BitVec.extractLsb'_toNat, Nat.shiftRight_eq_div_pow]
theorem toNat_opN (op : Word) : (opN op).toNat = op.toNat % 16 := by
  simp [opN, BitVec.extractLsb'_toNat]
theorem toNat_opNN (op : Word) : (opNN op).toNat = op.toNat % 256 := by
  simp [opNN, BitVec.extractLsb'_toNat]
theorem toNat_opNNN (op : Word) : (opNNN op).toNat = op.toNat % 4096 := by
  simp [opNNN, BitVec.extractLsb'_toNat]

/-! ### Format A -/

@[simp] theorem opT_formatA (t : Nibble) (a : Addr12) : opT (formatA t a) = t := by
  apply BitVec.eq_of_toNat_eq; rw [toNat_opT, toNat_formatA]; have := a.isLt; omega
@[simp] theorem opNNN_formatA (t : Nibble) (a : Addr12) : opNNN (formatA t a) = a := by
  apply BitVec.eq_of_toNat_eq; rw [toNat_opNNN, toNat_formatA]; have := a.isLt; omega
theorem formatA_fields (op : Word) : formatA (opT op) (opNNN op) = op := by
  apply BitVec.eq_of_toNat_eq; rw [toNat_formatA, toNat_opT, toNat_opNNN]; omega
@[simp] theorem opNN_formatA (t : Nibble) (a : Addr12) : opNN (formatA t a) = a.extractLsb' 0 8 := by
  apply BitVec.eq_of_toNat_eq
  rw [toNat_opNN, toNat_formatA]; simp only [BitVec.extractLsb'_toNat, Nat.shiftRight_zero]; omega
@[simp] theorem formatA_inj (t u : Nibble) (a b : Addr12) : formatA t a = formatA u b ↔ t = u ∧ a = b := by
  constructor
  · intro h
    exact ⟨by simpa using congrArg opT h, by simpa using congrArg opNNN h⟩
  · rintro ⟨rfl, rfl⟩; rfl

/-! ### Formats RB and RF -/

@[simp] theorem opT_formatRB (t x : Nibble) (nn : Byte) : opT (formatRB t x nn) = t := by
  apply BitVec.eq_of_toNat_eq; rw [toNat_opT, toNat_formatRB]; have := x.isLt; have := nn.isLt; omega
@[simp] theorem opX_formatRB (t x : Nibble) (nn : Byte) : opX (formatRB t x nn) = x := by
  apply BitVec.eq_of_toNat_eq; rw [toNat_opX, toNat_formatRB]; have := x.isLt; have := nn.isLt; omega
@[simp] theorem opNN_formatRB (t x : Nibble) (nn : Byte) : opNN (formatRB t x nn) = nn := by
  apply BitVec.eq_of_toNat_eq; rw [toNat_opNN, toNat_formatRB]; have := nn.isLt; omega
theorem formatRB_fields (op : Word) : formatRB (opT op) (opX op) (opNN op) = op := by
  apply BitVec.eq_of_toNat_eq; rw [toNat_formatRB, toNat_opT, toNat_opX, toNat_opNN]; omega

/-! ### Formats RR and D -/

@[simp] theorem opT_formatRR (t x y n : Nibble) : opT (formatRR t x y n) = t := by
  apply BitVec.eq_of_toNat_eq; rw [toNat_opT, toNat_formatRR]; have := x.isLt; have := y.isLt; have := n.isLt; omega
@[simp] theorem opX_formatRR (t x y n : Nibble) : opX (formatRR t x y n) = x := by
  apply BitVec.eq_of_toNat_eq; rw [toNat_opX, toNat_formatRR]; have := x.isLt; have := y.isLt; have := n.isLt; omega
@[simp] theorem opY_formatRR (t x y n : Nibble) : opY (formatRR t x y n) = y := by
  apply BitVec.eq_of_toNat_eq; rw [toNat_opY, toNat_formatRR]; have := y.isLt; have := n.isLt; omega
@[simp] theorem opN_formatRR (t x y n : Nibble) : opN (formatRR t x y n) = n := by
  apply BitVec.eq_of_toNat_eq; rw [toNat_opN, toNat_formatRR]; have := n.isLt; omega
theorem formatRR_fields (op : Word) : formatRR (opT op) (opX op) (opY op) (opN op) = op := by
  apply BitVec.eq_of_toNat_eq; rw [toNat_formatRR, toNat_opT, toNat_opX, toNat_opY, toNat_opN]; omega

/-- CLS and RET as layouts of format A. -/
theorem cls_word : (0x00E0#16 : Word) = formatA 0x0#4 0x0E0#12 := by decide
theorem ret_word : (0x00EE#16 : Word) = formatA 0x0#4 0x0EE#12 := by decide

/-- The bytes of an opcode, put together again, are the opcode. -/
theorem opcodeOf_bytes (op : Word) : opcodeOf (op.extractLsb' 8 8) (op.extractLsb' 0 8) = op := by
  apply BitVec.eq_of_toNat_eq
  rw [toNat_opcodeOf]
  have := op.isLt
  simp only [BitVec.extractLsb'_toNat, Nat.shiftRight_eq_div_pow]
  omega

/-- The decoder on the bytes of an opcode is the decoder on the opcode, and the bytes after it are handed back. -/
theorem decodeBytes_opcodeBytes (d : DecodeParams) (op : Word) (rest : List Byte) :
    decodeBytes d (opcodeBytes op ++ rest) = some (decode d op, rest) := by
  simp only [opcodeBytes, List.cons_append, List.nil_append, decodeBytes, opcodeOf_bytes]

end Sys2Proof
end

