-- ==== Sys2Proof/Laws/State.lean ====
section
/-! SUPPORT. What each update of the state does to each field, to each register, byte and pixel: one lemma for each, so that
no later proof unfolds an update. -/

namespace Sys2Proof.Machine

variable (s : State)

/-! ### setV -/

@[simp] theorem setV_i (r : RegIx) (b : Byte) : (s.setV r b).i = s.i := rfl
@[simp] theorem setV_pc (r : RegIx) (b : Byte) : (s.setV r b).pc = s.pc := rfl
@[simp] theorem setV_stack (r : RegIx) (b : Byte) : (s.setV r b).stack = s.stack := rfl
@[simp] theorem setV_dt (r : RegIx) (b : Byte) : (s.setV r b).dt = s.dt := rfl
@[simp] theorem setV_st (r : RegIx) (b : Byte) : (s.setV r b).st = s.st := rfl
@[simp] theorem setV_fb (r : RegIx) (b : Byte) : (s.setV r b).fb = s.fb := rfl
@[simp] theorem setV_dirty (r : RegIx) (b : Byte) : (s.setV r b).dirty = s.dirty := rfl
@[simp] theorem setV_key (r : RegIx) (b : Byte) : (s.setV r b).key = s.key := rfl
@[simp] theorem setV_mem (r : RegIx) (b : Byte) : (s.setV r b).mem = s.mem := rfl
@[simp] theorem setV_status (r : RegIx) (b : Byte) : (s.setV r b).status = s.status := rfl
@[simp] theorem setV_params (r : RegIx) (b : Byte) : (s.setV r b).params = s.params := rfl
@[simp] theorem setV_draws (r : RegIx) (b : Byte) : (s.setV r b).draws = s.draws := rfl
@[simp] theorem setV_agenda (r : RegIx) (b : Byte) : (s.setV r b).agenda = s.agenda := rfl
@[simp] theorem setV_byteAt (r : RegIx) (b : Byte) (c : Nat) : (s.setV r b).byteAt c = s.byteAt c := rfl
@[simp] theorem setV_pixel (r : RegIx) (b : Byte) (x y : Nat) : (s.setV r b).pixel x y = s.pixel x y := rfl

/-! ### setI -/

@[simp] theorem setI_regs (w : Word) : (s.setI w).regs = s.regs := rfl
@[simp] theorem setI_i (w : Word) : (s.setI w).i = w := rfl
@[simp] theorem setI_pc (w : Word) : (s.setI w).pc = s.pc := rfl
@[simp] theorem setI_stack (w : Word) : (s.setI w).stack = s.stack := rfl
@[simp] theorem setI_dt (w : Word) : (s.setI w).dt = s.dt := rfl
@[simp] theorem setI_st (w : Word) : (s.setI w).st = s.st := rfl
@[simp] theorem setI_fb (w : Word) : (s.setI w).fb = s.fb := rfl
@[simp] theorem setI_dirty (w : Word) : (s.setI w).dirty = s.dirty := rfl
@[simp] theorem setI_key (w : Word) : (s.setI w).key = s.key := rfl
@[simp] theorem setI_mem (w : Word) : (s.setI w).mem = s.mem := rfl
@[simp] theorem setI_status (w : Word) : (s.setI w).status = s.status := rfl
@[simp] theorem setI_params (w : Word) : (s.setI w).params = s.params := rfl
@[simp] theorem setI_draws (w : Word) : (s.setI w).draws = s.draws := rfl
@[simp] theorem setI_agenda (w : Word) : (s.setI w).agenda = s.agenda := rfl
@[simp] theorem setI_v (w : Word) (q : RegIx) : (s.setI w).v q = s.v q := rfl
@[simp] theorem setI_byteAt (w : Word) (c : Nat) : (s.setI w).byteAt c = s.byteAt c := rfl
@[simp] theorem setI_pixel (w : Word) (x y : Nat) : (s.setI w).pixel x y = s.pixel x y := rfl

/-! ### setPc -/

@[simp] theorem setPc_regs (w : Word) : (s.setPc w).regs = s.regs := rfl
@[simp] theorem setPc_i (w : Word) : (s.setPc w).i = s.i := rfl
@[simp] theorem setPc_pc (w : Word) : (s.setPc w).pc = w := rfl
@[simp] theorem setPc_stack (w : Word) : (s.setPc w).stack = s.stack := rfl
@[simp] theorem setPc_dt (w : Word) : (s.setPc w).dt = s.dt := rfl
@[simp] theorem setPc_st (w : Word) : (s.setPc w).st = s.st := rfl
@[simp] theorem setPc_fb (w : Word) : (s.setPc w).fb = s.fb := rfl
@[simp] theorem setPc_dirty (w : Word) : (s.setPc w).dirty = s.dirty := rfl
@[simp] theorem setPc_key (w : Word) : (s.setPc w).key = s.key := rfl
@[simp] theorem setPc_mem (w : Word) : (s.setPc w).mem = s.mem := rfl
@[simp] theorem setPc_status (w : Word) : (s.setPc w).status = s.status := rfl
@[simp] theorem setPc_params (w : Word) : (s.setPc w).params = s.params := rfl
@[simp] theorem setPc_draws (w : Word) : (s.setPc w).draws = s.draws := rfl
@[simp] theorem setPc_agenda (w : Word) : (s.setPc w).agenda = s.agenda := rfl
@[simp] theorem setPc_v (w : Word) (q : RegIx) : (s.setPc w).v q = s.v q := rfl
@[simp] theorem setPc_byteAt (w : Word) (c : Nat) : (s.setPc w).byteAt c = s.byteAt c := rfl
@[simp] theorem setPc_pixel (w : Word) (x y : Nat) : (s.setPc w).pixel x y = s.pixel x y := rfl

/-! ### setDt -/

@[simp] theorem setDt_regs (b : Byte) : (s.setDt b).regs = s.regs := rfl
@[simp] theorem setDt_i (b : Byte) : (s.setDt b).i = s.i := rfl
@[simp] theorem setDt_pc (b : Byte) : (s.setDt b).pc = s.pc := rfl
@[simp] theorem setDt_stack (b : Byte) : (s.setDt b).stack = s.stack := rfl
@[simp] theorem setDt_dt (b : Byte) : (s.setDt b).dt = b := rfl
@[simp] theorem setDt_st (b : Byte) : (s.setDt b).st = s.st := rfl
@[simp] theorem setDt_fb (b : Byte) : (s.setDt b).fb = s.fb := rfl
@[simp] theorem setDt_dirty (b : Byte) : (s.setDt b).dirty = s.dirty := rfl
@[simp] theorem setDt_key (b : Byte) : (s.setDt b).key = s.key := rfl
@[simp] theorem setDt_mem (b : Byte) : (s.setDt b).mem = s.mem := rfl
@[simp] theorem setDt_status (b : Byte) : (s.setDt b).status = s.status := rfl
@[simp] theorem setDt_params (b : Byte) : (s.setDt b).params = s.params := rfl
@[simp] theorem setDt_draws (b : Byte) : (s.setDt b).draws = s.draws := rfl
@[simp] theorem setDt_agenda (b : Byte) : (s.setDt b).agenda = s.agenda := rfl
@[simp] theorem setDt_v (b : Byte) (q : RegIx) : (s.setDt b).v q = s.v q := rfl
@[simp] theorem setDt_byteAt (b : Byte) (c : Nat) : (s.setDt b).byteAt c = s.byteAt c := rfl
@[simp] theorem setDt_pixel (b : Byte) (x y : Nat) : (s.setDt b).pixel x y = s.pixel x y := rfl

/-! ### setSt -/

@[simp] theorem setSt_regs (b : Byte) : (s.setSt b).regs = s.regs := rfl
@[simp] theorem setSt_i (b : Byte) : (s.setSt b).i = s.i := rfl
@[simp] theorem setSt_pc (b : Byte) : (s.setSt b).pc = s.pc := rfl
@[simp] theorem setSt_stack (b : Byte) : (s.setSt b).stack = s.stack := rfl
@[simp] theorem setSt_dt (b : Byte) : (s.setSt b).dt = s.dt := rfl
@[simp] theorem setSt_st (b : Byte) : (s.setSt b).st = b := rfl
@[simp] theorem setSt_fb (b : Byte) : (s.setSt b).fb = s.fb := rfl
@[simp] theorem setSt_dirty (b : Byte) : (s.setSt b).dirty = s.dirty := rfl
@[simp] theorem setSt_key (b : Byte) : (s.setSt b).key = s.key := rfl
@[simp] theorem setSt_mem (b : Byte) : (s.setSt b).mem = s.mem := rfl
@[simp] theorem setSt_status (b : Byte) : (s.setSt b).status = s.status := rfl
@[simp] theorem setSt_params (b : Byte) : (s.setSt b).params = s.params := rfl
@[simp] theorem setSt_draws (b : Byte) : (s.setSt b).draws = s.draws := rfl
@[simp] theorem setSt_agenda (b : Byte) : (s.setSt b).agenda = s.agenda := rfl
@[simp] theorem setSt_v (b : Byte) (q : RegIx) : (s.setSt b).v q = s.v q := rfl
@[simp] theorem setSt_byteAt (b : Byte) (c : Nat) : (s.setSt b).byteAt c = s.byteAt c := rfl
@[simp] theorem setSt_pixel (b : Byte) (x y : Nat) : (s.setSt b).pixel x y = s.pixel x y := rfl

/-! ### setDirty -/

@[simp] theorem setDirty_regs (b : Bool) : (s.setDirty b).regs = s.regs := rfl
@[simp] theorem setDirty_i (b : Bool) : (s.setDirty b).i = s.i := rfl
@[simp] theorem setDirty_pc (b : Bool) : (s.setDirty b).pc = s.pc := rfl
@[simp] theorem setDirty_stack (b : Bool) : (s.setDirty b).stack = s.stack := rfl
@[simp] theorem setDirty_dt (b : Bool) : (s.setDirty b).dt = s.dt := rfl
@[simp] theorem setDirty_st (b : Bool) : (s.setDirty b).st = s.st := rfl
@[simp] theorem setDirty_fb (b : Bool) : (s.setDirty b).fb = s.fb := rfl
@[simp] theorem setDirty_dirty (b : Bool) : (s.setDirty b).dirty = b := rfl
@[simp] theorem setDirty_key (b : Bool) : (s.setDirty b).key = s.key := rfl
@[simp] theorem setDirty_mem (b : Bool) : (s.setDirty b).mem = s.mem := rfl
@[simp] theorem setDirty_status (b : Bool) : (s.setDirty b).status = s.status := rfl
@[simp] theorem setDirty_params (b : Bool) : (s.setDirty b).params = s.params := rfl
@[simp] theorem setDirty_draws (b : Bool) : (s.setDirty b).draws = s.draws := rfl
@[simp] theorem setDirty_agenda (b : Bool) : (s.setDirty b).agenda = s.agenda := rfl
@[simp] theorem setDirty_v (b : Bool) (q : RegIx) : (s.setDirty b).v q = s.v q := rfl
@[simp] theorem setDirty_byteAt (b : Bool) (c : Nat) : (s.setDirty b).byteAt c = s.byteAt c := rfl
@[simp] theorem setDirty_pixel (b : Bool) (x y : Nat) : (s.setDirty b).pixel x y = s.pixel x y := rfl

/-! ### clearPixels -/

@[simp] theorem clearPixels_regs : (s.clearPixels).regs = s.regs := rfl
@[simp] theorem clearPixels_i : (s.clearPixels).i = s.i := rfl
@[simp] theorem clearPixels_pc : (s.clearPixels).pc = s.pc := rfl
@[simp] theorem clearPixels_stack : (s.clearPixels).stack = s.stack := rfl
@[simp] theorem clearPixels_dt : (s.clearPixels).dt = s.dt := rfl
@[simp] theorem clearPixels_st : (s.clearPixels).st = s.st := rfl
@[simp] theorem clearPixels_fb : (s.clearPixels).fb = Vector.replicate 32 0#64 := rfl
@[simp] theorem clearPixels_dirty : (s.clearPixels).dirty = s.dirty := rfl
@[simp] theorem clearPixels_key : (s.clearPixels).key = s.key := rfl
@[simp] theorem clearPixels_mem : (s.clearPixels).mem = s.mem := rfl
@[simp] theorem clearPixels_status : (s.clearPixels).status = s.status := rfl
@[simp] theorem clearPixels_params : (s.clearPixels).params = s.params := rfl
@[simp] theorem clearPixels_draws : (s.clearPixels).draws = s.draws := rfl
@[simp] theorem clearPixels_agenda : (s.clearPixels).agenda = s.agenda := rfl
@[simp] theorem clearPixels_v (q : RegIx) : (s.clearPixels).v q = s.v q := rfl
@[simp] theorem clearPixels_byteAt (c : Nat) : (s.clearPixels).byteAt c = s.byteAt c := rfl

/-! ### countDraw -/

@[simp] theorem countDraw_regs : (s.countDraw).regs = s.regs := rfl
@[simp] theorem countDraw_i : (s.countDraw).i = s.i := rfl
@[simp] theorem countDraw_pc : (s.countDraw).pc = s.pc := rfl
@[simp] theorem countDraw_stack : (s.countDraw).stack = s.stack := rfl
@[simp] theorem countDraw_dt : (s.countDraw).dt = s.dt := rfl
@[simp] theorem countDraw_st : (s.countDraw).st = s.st := rfl
@[simp] theorem countDraw_fb : (s.countDraw).fb = s.fb := rfl
@[simp] theorem countDraw_dirty : (s.countDraw).dirty = s.dirty := rfl
@[simp] theorem countDraw_key : (s.countDraw).key = s.key := rfl
@[simp] theorem countDraw_mem : (s.countDraw).mem = s.mem := rfl
@[simp] theorem countDraw_status : (s.countDraw).status = s.status := rfl
@[simp] theorem countDraw_params : (s.countDraw).params = s.params := rfl
@[simp] theorem countDraw_draws : (s.countDraw).draws = s.draws + 1 := rfl
@[simp] theorem countDraw_agenda : (s.countDraw).agenda = s.agenda := rfl
@[simp] theorem countDraw_v (q : RegIx) : (s.countDraw).v q = s.v q := rfl
@[simp] theorem countDraw_byteAt (c : Nat) : (s.countDraw).byteAt c = s.byteAt c := rfl
@[simp] theorem countDraw_pixel (x y : Nat) : (s.countDraw).pixel x y = s.pixel x y := rfl

/-! ### putByte -/

@[simp] theorem putByte_regs (a : Nat) (b : Byte) : (s.putByte a b).regs = s.regs := rfl
@[simp] theorem putByte_i (a : Nat) (b : Byte) : (s.putByte a b).i = s.i := rfl
@[simp] theorem putByte_pc (a : Nat) (b : Byte) : (s.putByte a b).pc = s.pc := rfl
@[simp] theorem putByte_stack (a : Nat) (b : Byte) : (s.putByte a b).stack = s.stack := rfl
@[simp] theorem putByte_dt (a : Nat) (b : Byte) : (s.putByte a b).dt = s.dt := rfl
@[simp] theorem putByte_st (a : Nat) (b : Byte) : (s.putByte a b).st = s.st := rfl
@[simp] theorem putByte_fb (a : Nat) (b : Byte) : (s.putByte a b).fb = s.fb := rfl
@[simp] theorem putByte_dirty (a : Nat) (b : Byte) : (s.putByte a b).dirty = s.dirty := rfl
@[simp] theorem putByte_key (a : Nat) (b : Byte) : (s.putByte a b).key = s.key := rfl
@[simp] theorem putByte_mem (a : Nat) (b : Byte) : (s.putByte a b).mem = Memory.write s.params.unlisted a b s.mem := rfl
@[simp] theorem putByte_status (a : Nat) (b : Byte) : (s.putByte a b).status = s.status := rfl
@[simp] theorem putByte_params (a : Nat) (b : Byte) : (s.putByte a b).params = s.params := rfl
@[simp] theorem putByte_draws (a : Nat) (b : Byte) : (s.putByte a b).draws = s.draws := rfl
@[simp] theorem putByte_agenda (a : Nat) (b : Byte) : (s.putByte a b).agenda = s.agenda := rfl
@[simp] theorem putByte_v (a : Nat) (b : Byte) (q : RegIx) : (s.putByte a b).v q = s.v q := rfl
@[simp] theorem putByte_pixel (a : Nat) (b : Byte) (x y : Nat) : (s.putByte a b).pixel x y = s.pixel x y := rfl

/-! ### takeError -/

@[simp] theorem takeError_regs (e : Error) : (takeError e s).regs = s.regs := rfl
@[simp] theorem takeError_i (e : Error) : (takeError e s).i = s.i := rfl
@[simp] theorem takeError_pc (e : Error) : (takeError e s).pc = s.pc := rfl
@[simp] theorem takeError_stack (e : Error) : (takeError e s).stack = s.stack := rfl
@[simp] theorem takeError_dt (e : Error) : (takeError e s).dt = s.dt := rfl
@[simp] theorem takeError_st (e : Error) : (takeError e s).st = s.st := rfl
@[simp] theorem takeError_fb (e : Error) : (takeError e s).fb = s.fb := rfl
@[simp] theorem takeError_dirty (e : Error) : (takeError e s).dirty = s.dirty := rfl
@[simp] theorem takeError_key (e : Error) : (takeError e s).key = s.key := rfl
@[simp] theorem takeError_mem (e : Error) : (takeError e s).mem = s.mem := rfl
@[simp] theorem takeError_status (e : Error) : (takeError e s).status = .faulted e := rfl
@[simp] theorem takeError_params (e : Error) : (takeError e s).params = s.params := rfl
@[simp] theorem takeError_draws (e : Error) : (takeError e s).draws = s.draws := rfl
@[simp] theorem takeError_agenda (e : Error) : (takeError e s).agenda = s.agenda := rfl
@[simp] theorem takeError_v (e : Error) (q : RegIx) : (takeError e s).v q = s.v q := rfl
@[simp] theorem takeError_byteAt (e : Error) (c : Nat) : (takeError e s).byteAt c = s.byteAt c := rfl
@[simp] theorem takeError_pixel (e : Error) (x y : Nat) : (takeError e s).pixel x y = s.pixel x y := rfl

/-! ### advancePc -/

@[simp] theorem advancePc_regs : (s.advancePc).regs = s.regs := rfl
@[simp] theorem advancePc_i : (s.advancePc).i = s.i := rfl
@[simp] theorem advancePc_pc : (s.advancePc).pc = s.pc + 2#16 := rfl
@[simp] theorem advancePc_stack : (s.advancePc).stack = s.stack := rfl
@[simp] theorem advancePc_dt : (s.advancePc).dt = s.dt := rfl
@[simp] theorem advancePc_st : (s.advancePc).st = s.st := rfl
@[simp] theorem advancePc_fb : (s.advancePc).fb = s.fb := rfl
@[simp] theorem advancePc_dirty : (s.advancePc).dirty = s.dirty := rfl
@[simp] theorem advancePc_key : (s.advancePc).key = s.key := rfl
@[simp] theorem advancePc_mem : (s.advancePc).mem = s.mem := rfl
@[simp] theorem advancePc_status : (s.advancePc).status = s.status := rfl
@[simp] theorem advancePc_params : (s.advancePc).params = s.params := rfl
@[simp] theorem advancePc_draws : (s.advancePc).draws = s.draws := rfl
@[simp] theorem advancePc_agenda : (s.advancePc).agenda = s.agenda := rfl
@[simp] theorem advancePc_v (q : RegIx) : (s.advancePc).v q = s.v q := rfl
@[simp] theorem advancePc_byteAt (c : Nat) : (s.advancePc).byteAt c = s.byteAt c := rfl
@[simp] theorem advancePc_pixel (x y : Nat) : (s.advancePc).pixel x y = s.pixel x y := rfl

/-! ### pressKey -/

@[simp] theorem pressKey_regs (k : Nat) : (s.pressKey k).regs = s.regs := rfl
@[simp] theorem pressKey_i (k : Nat) : (s.pressKey k).i = s.i := rfl
@[simp] theorem pressKey_pc (k : Nat) : (s.pressKey k).pc = s.pc := rfl
@[simp] theorem pressKey_stack (k : Nat) : (s.pressKey k).stack = s.stack := rfl
@[simp] theorem pressKey_dt (k : Nat) : (s.pressKey k).dt = s.dt := rfl
@[simp] theorem pressKey_st (k : Nat) : (s.pressKey k).st = s.st := rfl
@[simp] theorem pressKey_fb (k : Nat) : (s.pressKey k).fb = s.fb := rfl
@[simp] theorem pressKey_dirty (k : Nat) : (s.pressKey k).dirty = s.dirty := rfl
@[simp] theorem pressKey_key (k : Nat) : (s.pressKey k).key = s.key ||| BitVec.twoPow 16 k := rfl
@[simp] theorem pressKey_mem (k : Nat) : (s.pressKey k).mem = s.mem := rfl
@[simp] theorem pressKey_status (k : Nat) : (s.pressKey k).status = s.status := rfl
@[simp] theorem pressKey_params (k : Nat) : (s.pressKey k).params = s.params := rfl
@[simp] theorem pressKey_draws (k : Nat) : (s.pressKey k).draws = s.draws := rfl
@[simp] theorem pressKey_agenda (k : Nat) : (s.pressKey k).agenda = s.agenda := rfl
@[simp] theorem pressKey_v (k : Nat) (q : RegIx) : (s.pressKey k).v q = s.v q := rfl
@[simp] theorem pressKey_byteAt (k : Nat) (c : Nat) : (s.pressKey k).byteAt c = s.byteAt c := rfl
@[simp] theorem pressKey_pixel (k : Nat) (x y : Nat) : (s.pressKey k).pixel x y = s.pixel x y := rfl

/-! ### releaseKey -/

@[simp] theorem releaseKey_regs (k : Nat) : (s.releaseKey k).regs = s.regs := rfl
@[simp] theorem releaseKey_i (k : Nat) : (s.releaseKey k).i = s.i := rfl
@[simp] theorem releaseKey_pc (k : Nat) : (s.releaseKey k).pc = s.pc := rfl
@[simp] theorem releaseKey_stack (k : Nat) : (s.releaseKey k).stack = s.stack := rfl
@[simp] theorem releaseKey_dt (k : Nat) : (s.releaseKey k).dt = s.dt := rfl
@[simp] theorem releaseKey_st (k : Nat) : (s.releaseKey k).st = s.st := rfl
@[simp] theorem releaseKey_fb (k : Nat) : (s.releaseKey k).fb = s.fb := rfl
@[simp] theorem releaseKey_dirty (k : Nat) : (s.releaseKey k).dirty = s.dirty := rfl
@[simp] theorem releaseKey_key (k : Nat) : (s.releaseKey k).key = s.key &&& ~~~BitVec.twoPow 16 k := rfl
@[simp] theorem releaseKey_mem (k : Nat) : (s.releaseKey k).mem = s.mem := rfl
@[simp] theorem releaseKey_status (k : Nat) : (s.releaseKey k).status = s.status := rfl
@[simp] theorem releaseKey_params (k : Nat) : (s.releaseKey k).params = s.params := rfl
@[simp] theorem releaseKey_draws (k : Nat) : (s.releaseKey k).draws = s.draws := rfl
@[simp] theorem releaseKey_agenda (k : Nat) : (s.releaseKey k).agenda = s.agenda := rfl
@[simp] theorem releaseKey_v (k : Nat) (q : RegIx) : (s.releaseKey k).v q = s.v q := rfl
@[simp] theorem releaseKey_byteAt (k : Nat) (c : Nat) : (s.releaseKey k).byteAt c = s.byteAt c := rfl
@[simp] theorem releaseKey_pixel (k : Nat) (x y : Nat) : (s.releaseKey k).pixel x y = s.pixel x y := rfl

/-! ### dropTurn -/

@[simp] theorem dropTurn_regs : (s.dropTurn).regs = s.regs := rfl
@[simp] theorem dropTurn_i : (s.dropTurn).i = s.i := rfl
@[simp] theorem dropTurn_pc : (s.dropTurn).pc = s.pc := rfl
@[simp] theorem dropTurn_stack : (s.dropTurn).stack = s.stack := rfl
@[simp] theorem dropTurn_dt : (s.dropTurn).dt = s.dt := rfl
@[simp] theorem dropTurn_st : (s.dropTurn).st = s.st := rfl
@[simp] theorem dropTurn_fb : (s.dropTurn).fb = s.fb := rfl
@[simp] theorem dropTurn_dirty : (s.dropTurn).dirty = s.dirty := rfl
@[simp] theorem dropTurn_key : (s.dropTurn).key = s.key := rfl
@[simp] theorem dropTurn_mem : (s.dropTurn).mem = s.mem := rfl
@[simp] theorem dropTurn_status : (s.dropTurn).status = s.status := rfl
@[simp] theorem dropTurn_params : (s.dropTurn).params = s.params := rfl
@[simp] theorem dropTurn_draws : (s.dropTurn).draws = s.draws := rfl
@[simp] theorem dropTurn_agenda : (s.dropTurn).agenda = s.agenda.drop := rfl
@[simp] theorem dropTurn_v (q : RegIx) : (s.dropTurn).v q = s.v q := rfl
@[simp] theorem dropTurn_byteAt (c : Nat) : (s.dropTurn).byteAt c = s.byteAt c := rfl
@[simp] theorem dropTurn_pixel (x y : Nat) : (s.dropTurn).pixel x y = s.pixel x y := rfl

/-! ### togglePixel -/

@[simp] theorem togglePixel_regs (x y : Nat) : (s.togglePixel x y).regs = s.regs := by
  unfold State.togglePixel; split <;> rfl
@[simp] theorem togglePixel_i (x y : Nat) : (s.togglePixel x y).i = s.i := by
  unfold State.togglePixel; split <;> rfl
@[simp] theorem togglePixel_pc (x y : Nat) : (s.togglePixel x y).pc = s.pc := by
  unfold State.togglePixel; split <;> rfl
@[simp] theorem togglePixel_stack (x y : Nat) : (s.togglePixel x y).stack = s.stack := by
  unfold State.togglePixel; split <;> rfl
@[simp] theorem togglePixel_dt (x y : Nat) : (s.togglePixel x y).dt = s.dt := by
  unfold State.togglePixel; split <;> rfl
@[simp] theorem togglePixel_st (x y : Nat) : (s.togglePixel x y).st = s.st := by
  unfold State.togglePixel; split <;> rfl
@[simp] theorem togglePixel_dirty (x y : Nat) : (s.togglePixel x y).dirty = s.dirty := by
  unfold State.togglePixel; split <;> rfl
@[simp] theorem togglePixel_key (x y : Nat) : (s.togglePixel x y).key = s.key := by
  unfold State.togglePixel; split <;> rfl
@[simp] theorem togglePixel_mem (x y : Nat) : (s.togglePixel x y).mem = s.mem := by
  unfold State.togglePixel; split <;> rfl
@[simp] theorem togglePixel_status (x y : Nat) : (s.togglePixel x y).status = s.status := by
  unfold State.togglePixel; split <;> rfl
@[simp] theorem togglePixel_params (x y : Nat) : (s.togglePixel x y).params = s.params := by
  unfold State.togglePixel; split <;> rfl
@[simp] theorem togglePixel_draws (x y : Nat) : (s.togglePixel x y).draws = s.draws := by
  unfold State.togglePixel; split <;> rfl
@[simp] theorem togglePixel_agenda (x y : Nat) : (s.togglePixel x y).agenda = s.agenda := by
  unfold State.togglePixel; split <;> rfl
@[simp] theorem togglePixel_v (x y : Nat) (q : RegIx) : (s.togglePixel x y).v q = s.v q := by
  unfold State.togglePixel; split <;> rfl
@[simp] theorem togglePixel_byteAt (x y c : Nat) : (s.togglePixel x y).byteAt c = s.byteAt c := by
  unfold State.togglePixel; split <;> rfl

/-! ### Reading back -/

/-- Reading a register after writing one. -/
@[simp] theorem setV_v (r q : RegIx) (b : Byte) : (s.setV r b).v q = if q = r then b else s.v q := by
  unfold State.setV State.v
  rw [Vector.getElem_set]
  by_cases h : q = r
  · simp [h]
  · have : ¬ r.toNat = q.toNat := fun e => h (BitVec.eq_of_toNat_eq e.symm)
    simp [h, this]

/-- Two states with the same registers have the same register file. -/
theorem regs_eq_of_v {s t : State} (h : ∀ r, t.v r = s.v r) : t.regs = s.regs := by
  apply Vector.ext
  intro k hk
  have := h (BitVec.ofNat 4 k)
  simpa [State.v, Nat.mod_eq_of_lt hk] using this

/-- Every pixel of a cleared framebuffer is 0. -/
@[simp] theorem clearPixels_pixel (x y : Nat) : s.clearPixels.pixel x y = false := by
  simp [State.pixel, State.clearPixels]

/-- Toggling changes the one pixel it names. -/
theorem togglePixel_pixel {x y : Nat} (hx : x < 64) (hy : y < 32) (px py : Nat) :
    (s.togglePixel x y).pixel px py = (s.pixel px py ^^ decide ((px, py) = (x, y))) := by
  unfold State.togglePixel State.pixel
  rw [dif_pos hy]
  by_cases hp : py < 32
  · rw [dif_pos hp, dif_pos hp, Vector.getElem_set]
    by_cases he : y = py
    · subst he
      by_cases hxx : x = px
      · subst hxx; simp [hx]
      · have : ¬ px = x := fun e => hxx e.symm
        simp [BitVec.getLsbD_twoPow, hxx, this]
    · have : ¬ py = y := fun e => he e.symm
      simp [he, this]
  · have : ¬ py = y := by omega
    rw [dif_neg hp, dif_neg hp]; simp [this]

/-! ### skipIf -/

@[simp] theorem skipIf_regs (c : Bool) : (s.skipIf c).regs = s.regs := by
  unfold State.skipIf; split <;> rfl
@[simp] theorem skipIf_i (c : Bool) : (s.skipIf c).i = s.i := by
  unfold State.skipIf; split <;> rfl
@[simp] theorem skipIf_stack (c : Bool) : (s.skipIf c).stack = s.stack := by
  unfold State.skipIf; split <;> rfl
@[simp] theorem skipIf_dt (c : Bool) : (s.skipIf c).dt = s.dt := by
  unfold State.skipIf; split <;> rfl
@[simp] theorem skipIf_st (c : Bool) : (s.skipIf c).st = s.st := by
  unfold State.skipIf; split <;> rfl
@[simp] theorem skipIf_fb (c : Bool) : (s.skipIf c).fb = s.fb := by
  unfold State.skipIf; split <;> rfl
@[simp] theorem skipIf_dirty (c : Bool) : (s.skipIf c).dirty = s.dirty := by
  unfold State.skipIf; split <;> rfl
@[simp] theorem skipIf_key (c : Bool) : (s.skipIf c).key = s.key := by
  unfold State.skipIf; split <;> rfl
@[simp] theorem skipIf_mem (c : Bool) : (s.skipIf c).mem = s.mem := by
  unfold State.skipIf; split <;> rfl
@[simp] theorem skipIf_status (c : Bool) : (s.skipIf c).status = s.status := by
  unfold State.skipIf; split <;> rfl
@[simp] theorem skipIf_params (c : Bool) : (s.skipIf c).params = s.params := by
  unfold State.skipIf; split <;> rfl
@[simp] theorem skipIf_draws (c : Bool) : (s.skipIf c).draws = s.draws := by
  unfold State.skipIf; split <;> rfl
@[simp] theorem skipIf_agenda (c : Bool) : (s.skipIf c).agenda = s.agenda := by
  unfold State.skipIf; split <;> rfl
@[simp] theorem skipIf_pc (c : Bool) : (s.skipIf c).pc = if c then s.pc + 2#16 else s.pc := by
  unfold State.skipIf; split <;> rfl
@[simp] theorem skipIf_v (c : Bool) (q : RegIx) : (s.skipIf c).v q = s.v q := by
  unfold State.skipIf; split <;> rfl
@[simp] theorem skipIf_byteAt (c : Bool) (a : Nat) : (s.skipIf c).byteAt a = s.byteAt a := by
  unfold State.skipIf; split <;> rfl
@[simp] theorem skipIf_pixel (c : Bool) (x y : Nat) : (s.skipIf c).pixel x y = s.pixel x y := by
  unfold State.skipIf; split <;> rfl

end Sys2Proof.Machine
end

