-- ==== Sys2Proof/Laws/Memory.lean ====
section
/-! SUPPORT. The laws of the memory operations: reading back what was written, and keeping the canonical form. -/

namespace Sys2Proof.Machine

variable (base : Nat → Byte)

theorem Memory.read_dropCell (a b : Nat) (m : List Host.Cell) :
    Memory.read base b (Memory.dropCell a m) = if b = a then base b else Memory.read base b m := by
  induction m with
  | nil => simp [Memory.dropCell, Memory.read]
  | cons c rest ih =>
    obtain ⟨d, w⟩ := c
    by_cases had : a = d
    · subst had
      simp only [Memory.dropCell, if_true, ih, Memory.read]
      split <;> rfl
    · simp only [Memory.dropCell, if_neg had, Memory.read, ih]
      by_cases hbd : b = d
      · subst hbd; simp [Ne.symm had]
      · simp [hbd]

theorem Memory.read_insertCell (a b : Nat) (v : Byte) (m : List Host.Cell) (h : ∀ c ∈ m, c.1 ≠ a) :
    Memory.read base b (Memory.insertCell a v m) = if b = a then v else Memory.read base b m := by
  induction m with
  | nil => simp [Memory.insertCell, Memory.read]
  | cons c rest ih =>
    obtain ⟨d, w⟩ := c
    have hd : d ≠ a := h (d, w) (by simp)
    have ih := ih fun c hc => h c (by simp [hc])
    unfold Memory.insertCell
    split
    · simp [Memory.read]
    · simp only [Memory.read, ih]
      by_cases hbd : b = d
      · subst hbd; simp [hd]
      · simp [hbd]

theorem Memory.mem_dropCell {a : Nat} {m : List Host.Cell} {c : Host.Cell} (h : c ∈ Memory.dropCell a m) :
    c ∈ m ∧ c.1 ≠ a := by
  induction m with
  | nil => simp [Memory.dropCell] at h
  | cons d rest ih =>
    obtain ⟨b, w⟩ := d
    unfold Memory.dropCell at h
    split at h
    · exact ⟨List.mem_cons_of_mem _ (ih h).1, (ih h).2⟩
    · next hne =>
      rcases List.mem_cons.1 h with rfl | h
      · exact ⟨by simp, fun e => hne e.symm⟩
      · exact ⟨List.mem_cons_of_mem _ (ih h).1, (ih h).2⟩

/-- Reading a byte after writing one: no premise on the list is needed. -/
theorem Memory.read_write (a b : Nat) (v : Byte) (m : List Host.Cell) :
    Memory.read base b (Memory.write base a v m) = if b = a then v else Memory.read base b m := by
  unfold Memory.write
  split
  · next hv => rw [Memory.read_dropCell]; split <;> simp_all
  · rw [Memory.read_insertCell base a b v _ fun c hc => (Memory.mem_dropCell hc).2, Memory.read_dropCell]
    split <;> simp_all

theorem Memory.wf_cons {a : Nat} {v : Byte} {m : List Host.Cell} :
    Memory.wf base ((a, v) :: m) = true ↔ a < memSize ∧ v ≠ base a ∧ (∀ c ∈ m, a < c.1) ∧ Memory.wf base m = true := by
  simp [Memory.wf, and_assoc]

theorem Memory.wf_dropCell {a : Nat} {m : List Host.Cell} (h : Memory.wf base m = true) :
    Memory.wf base (Memory.dropCell a m) = true := by
  induction m with
  | nil => exact h
  | cons c rest ih =>
    obtain ⟨b, w⟩ := c
    obtain ⟨hb, hw, hlt, hr⟩ := (Memory.wf_cons base).1 h
    unfold Memory.dropCell
    split
    · exact ih hr
    · exact (Memory.wf_cons base).2 ⟨hb, hw, fun c hc => hlt c (Memory.mem_dropCell hc).1, ih hr⟩

theorem Memory.mem_insertCell {a : Nat} {v : Byte} {m : List Host.Cell} {c : Host.Cell}
    (h : c ∈ Memory.insertCell a v m) : c = (a, v) ∨ c ∈ m := by
  induction m with
  | nil => simpa [Memory.insertCell] using h
  | cons d rest ih =>
    obtain ⟨b, w⟩ := d
    unfold Memory.insertCell at h
    split at h
    · exact List.mem_cons.1 h
    · rcases List.mem_cons.1 h with rfl | h
      · exact .inr (by simp)
      · exact (ih h).imp id (List.mem_cons_of_mem _)

theorem Memory.wf_insertCell {a : Nat} {v : Byte} {m : List Host.Cell} (ha : a < memSize) (hv : v ≠ base a)
    (hne : ∀ c ∈ m, c.1 ≠ a) (h : Memory.wf base m = true) : Memory.wf base (Memory.insertCell a v m) = true := by
  induction m with
  | nil => exact (Memory.wf_cons base).2 ⟨ha, hv, by simp, rfl⟩
  | cons c rest ih =>
    obtain ⟨b, w⟩ := c
    obtain ⟨hb, hw, hlt, hr⟩ := (Memory.wf_cons base).1 h
    have hba : b ≠ a := hne (b, w) (by simp)
    unfold Memory.insertCell
    split
    · next hab =>
      refine (Memory.wf_cons base).2 ⟨ha, hv, fun c hc => ?_, h⟩
      rcases List.mem_cons.1 hc with rfl | hc
      · exact hab
      · exact Nat.lt_trans hab (hlt c hc)
    · next hab =>
      refine (Memory.wf_cons base).2 ⟨hb, hw, fun c hc => ?_, ih (fun c hc => hne c (by simp [hc])) hr⟩
      rcases Memory.mem_insertCell hc with rfl | hc
      · change b < a; omega
      · exact hlt c hc

/-- A write inside the address space keeps the canonical form. -/
theorem Memory.wf_write {a : Nat} {v : Byte} {m : List Host.Cell} (ha : a < memSize) (h : Memory.wf base m = true) :
    Memory.wf base (Memory.write base a v m) = true := by
  unfold Memory.write
  split
  · exact Memory.wf_dropCell base h
  · next hv =>
    exact Memory.wf_insertCell base ha hv (fun c hc => (Memory.mem_dropCell hc).2) (Memory.wf_dropCell base h)

/-- Bytes written from `a` inside the address space keep the canonical form. -/
theorem Memory.wf_writeBytes {a : Nat} {vs : List Byte} {m : List Host.Cell} (ha : a + vs.length ≤ memSize)
    (h : Memory.wf base m = true) : Memory.wf base (Memory.writeBytes base a vs m) = true := by
  induction vs generalizing a m with
  | nil => exact h
  | cons v vs ih =>
    simp only [List.length_cons] at ha
    exact ih (by omega) (Memory.wf_write base (by omega) h)

/-- Reading after a run of bytes was written. -/
theorem Memory.read_writeBytes (a b : Nat) (vs : List Byte) (m : List Host.Cell) :
    Memory.read base b (Memory.writeBytes base a vs m)
      = if h : a ≤ b ∧ b < a + vs.length then vs[b - a]'(by omega) else Memory.read base b m := by
  induction vs generalizing a m with
  | nil => rw [dif_neg (by simp only [List.length_nil]; omega)]; rfl
  | cons v vs ih =>
    rw [Memory.writeBytes, ih]
    by_cases h : a + 1 ≤ b ∧ b < a + 1 + vs.length
    · rw [dif_pos h, dif_pos (by simp only [List.length_cons]; omega)]
      have : b - a = (b - (a + 1)) + 1 := by omega
      simp [this]
    · rw [dif_neg h, Memory.read_write]
      by_cases hb : b = a
      · subst hb; rw [if_pos rfl, dif_pos (by simp)]; simp
      · rw [if_neg hb, dif_neg (by simp only [List.length_cons]; omega)]

/-- A checked write keeps the canonical form. -/
theorem putByte_wf {s : State} {a : Nat} (b : Byte) (ha : a ≤ 0xFFF) (h : Memory.wf s.params.unlisted s.mem = true) :
    Memory.wf (s.putByte a b).params.unlisted (s.putByte a b).mem = true :=
  Memory.wf_write _ (by unfold memSize; omega) h

/-- A loaded program leaves the canonical form. -/
theorem load_wf (s : State) {program : List Byte} (h : program.length ≤ maxProgram) :
    Memory.wf (s.load program).params.unlisted (s.load program).mem = true :=
  Memory.wf_writeBytes _ (by unfold maxProgram at h; unfold memSize progBase; omega) rfl

/-- Reading a byte of the state after writing one. -/
@[simp] theorem putByte_byteAt (s : State) (a : Nat) (b : Byte) (c : Nat) :
    (s.putByte a b).byteAt c = if c = a then b else s.byteAt c :=
  Memory.read_write s.params.unlisted a c b s.mem


end Sys2Proof.Machine
end

