-- ==== Sys2Proof/Laws/Ops.lean ====
section
/-! SUPPORT. What each shared operation can do, said once: memory accesses, stack, loops, fetch, placing an opcode. -/

namespace Sys2Proof.Machine

/-! ### Memory accesses -/

theorem memRead_ok {a : Nat} {s : State} (h : a ≤ 0xFFF) : memRead a s = .ok (s.byteAt a) := if_pos h
theorem memRead_error {a : Nat} {s : State} (h : ¬ a ≤ 0xFFF) : memRead a s = .error (.outOfBoundsAccess a) := if_neg h
theorem memWrite_done {a : Nat} {b : Byte} {s : State} (h : a ≤ 0xFFF) : memWrite a b s = .done (s.putByte a b) :=
  if_pos h
theorem memWrite_raised {a : Nat} {b : Byte} {s : State} (h : ¬ a ≤ 0xFFF) :
    memWrite a b s = .raised (.outOfBoundsAccess a) s := if_neg h

theorem readInto_ok {a : Nat} {k : Byte → State → Effect} {s : State} (h : a ≤ 0xFFF) :
    readInto a k s = k (s.byteAt a) s := by simp [readInto, memRead_ok h]
theorem readInto_error {a : Nat} {k : Byte → State → Effect} {s : State} (h : ¬ a ≤ 0xFFF) :
    readInto a k s = .raised (.outOfBoundsAccess a) s := by simp [readInto, memRead_error h]

/-! ### Effects -/

@[simp] theorem done_andThen (s : State) (f : State → Effect) : (Effect.done s).andThen f = f s := rfl
@[simp] theorem raised_andThen (e : Error) (s : State) (f : State → Effect) :
    (Effect.raised e s).andThen f = .raised e s := rfl
@[simp] theorem done_outcome (s : State) : (Effect.done s).outcome = .next s := rfl
@[simp] theorem raised_outcome (e : Error) (s : State) : (Effect.raised e s).outcome = .next (takeError e s) := rfl

theorem andThen_assoc (r : Effect) (f g : State → Effect) :
    (r.andThen f).andThen g = r.andThen fun s => (f s).andThen g := by cases r <;> rfl

/-- The state an effect ends in, the error not yet taken. -/
def Effect.state : Effect → State
  | .done s => s
  | .raised _ s => s

/-- An instruction that ends in an effect always answers a next state, and what a `raise` adds is the status. -/
theorem outcome_next (r : Effect) : ∃ t, r.outcome = .next t ∧ (t = r.state ∨ ∃ e, t = takeError e r.state) := by
  cases r with
  | done s => exact ⟨s, rfl, .inl rfl⟩
  | raised e s => exact ⟨_, rfl, .inr ⟨e, rfl⟩⟩

/-! ### Loops -/

@[simp] theorem forEach_nil {α : Type} (f : α → State → Effect) (s : State) : Effect.forEach f [] s = .done s := rfl
theorem forEach_cons {α : Type} (f : α → State → Effect) (a : α) (l : List α) (s : State) :
    Effect.forEach f (a :: l) s = (f a s).andThen (Effect.forEach f l) := rfl

theorem forEach_append {α : Type} (f : α → State → Effect) (l m : List α) (s : State) :
    Effect.forEach f (l ++ m) s = (Effect.forEach f l s).andThen (Effect.forEach f m) := by
  induction l generalizing s with
  | nil => rfl
  | cons a l ih =>
    rw [List.cons_append, forEach_cons, forEach_cons, andThen_assoc]
    congr 1; funext t; exact ih t

/-- A relation between start and end that every pass of a loop keeps holds of the whole loop. -/
theorem forEach_state_rel {α : Type} {f : α → State → Effect} (R : State → State → Prop) (refl : ∀ s, R s s)
    (trans : ∀ s t u, R s t → R t u → R s u) {l : List α} (pass : ∀ a ∈ l, ∀ s, R s (f a s).state) (s : State) :
    R s (Effect.forEach f l s).state := by
  induction l generalizing s with
  | nil => exact refl s
  | cons a l ih =>
    have h := pass a (by simp) s
    rw [forEach_cons]
    cases hf : f a s with
    | done t => rw [hf] at h; exact trans _ _ _ h (ih (fun b hb => pass b (by simp [hb])) t)
    | raised e t => rw [hf] at h; exact h

/-- A loop whose passes all end goes through all of them. -/
theorem forEach_done {α : Type} {f : α → State → Effect} {g : State → α → State} {l : List α}
    (pass : ∀ a ∈ l, ∀ s, f a s = .done (g s a)) (s : State) : Effect.forEach f l s = .done (l.foldl g s) := by
  induction l generalizing s with
  | nil => rfl
  | cons a l ih =>
    rw [forEach_cons, pass a (by simp), done_andThen, ih fun b hb => pass b (by simp [hb])]; rfl

/-- A loop that raises does so at its first pass that raises, with the passes before it made. -/
theorem forEach_raised {α : Type} {f : α → State → Effect} {g : State → α → State} {l m : List α} {a : α} {e : Error}
    (pass : ∀ b ∈ l, ∀ s, f b s = .done (g s b)) (stop : ∀ s, f a s = .raised e s) (s : State) :
    Effect.forEach f (l ++ a :: m) s = .raised e (l.foldl g s) := by
  rw [forEach_append, forEach_done pass, done_andThen, forEach_cons, stop]; rfl

/-! ### The stack -/

theorem push_done {w : Word} {s : State} (h : s.stackFull = false) : push w s = .done { s with stack := w :: s.stack } := by
  simp [push, h]
theorem push_raised {w : Word} {s : State} (h : s.stackFull = true) : push w s = .raised .stackOverflow s := by
  simp [push, h]
theorem popInto_cons {k : Word → State → Effect} {s : State} {w : Word} {rest : List Word} (h : s.stack = w :: rest) :
    popInto k s = k w { s with stack := rest } := by simp [popInto, h]
theorem popInto_nil {k : Word → State → Effect} {s : State} (h : s.stack = []) :
    popInto k s = .raised .stackUnderflow s := by simp [popInto, h]

/-! ### Fetch -/

/-- A fetch from a pc up to 0xFFE gives the opcode there. -/
theorem fetch_ok {s : State} (h : s.pc.toNat ≤ 0xFFE) : fetch s = .ok s.opcodeAtPc := by
  simp only [fetch, memRead_ok (show s.pc.toNat ≤ 0xFFF by omega), memRead_ok (show s.pc.toNat + 1 ≤ 0xFFF by omega)]
  rfl

/-- A fetch from a pc above 0xFFE raises: at 0xFFF for the second byte, above it for the first. -/
theorem fetch_error {s : State} (h : ¬ s.pc.toNat ≤ 0xFFE) :
    fetch s = .error (.outOfBoundsAccess (if s.pc.toNat = 0xFFF then 0x1000 else s.pc.toNat)) := by
  by_cases h1 : s.pc.toNat = 0xFFF
  · simp [fetch, memRead, h1]
  · have : ¬ s.pc.toNat ≤ 0xFFF := by omega
    simp [fetch, memRead, h1, this]

/-! ### Placing an opcode -/

theorem fetchablePc_le (pc : Word) : (fetchablePc pc).toNat ≤ 0xFFE := by
  unfold fetchablePc; split
  · assumption
  · decide

theorem placeOpcode_opcodeAtPc (s : State) (op : Word) : (s.placeOpcode op).opcodeAtPc = op := by
  have h : ∀ a, (s.placeOpcode op).byteAt a
      = Memory.read s.params.unlisted a
          (Memory.writeBytes s.params.unlisted (fetchablePc s.pc).toNat (opcodeBytes op) s.mem) := fun _ => rfl
  have hp : (s.placeOpcode op).pc = fetchablePc s.pc := rfl
  unfold State.opcodeAtPc
  rw [h, h, hp, Memory.read_writeBytes, Memory.read_writeBytes, dif_pos (by simp [opcodeBytes]),
    dif_pos (by simp [opcodeBytes])]
  have e : (fetchablePc s.pc).toNat + 1 - (fetchablePc s.pc).toNat = 1 := by omega
  simp only [Nat.sub_self, e]
  exact opcodeOf_bytes op

end Sys2Proof.Machine
end

