-- ==== Sys2Proof/Laws/Step.lean ====
section
/-! SUPPORT. Whose turn it is, and what the fetch and an opcode placed by withFetchWord lead to. -/

namespace Sys2Proof.Machine

/-! ### The agenda -/

@[simp] theorem head_cons (t : Turn) (l c : List Turn) (k : Nat) : Agenda.head ⟨t :: l, c, k⟩ = t := rfl
@[simp] theorem head_cycle (t : Turn) (c : List Turn) (k : Nat) : Agenda.head ⟨[], t :: c, k⟩ = t := rfl
@[simp] theorem head_empty (k : Nat) : Agenda.head ⟨[], [], k⟩ = .executor := rfl
@[simp] theorem drop_cycle (a : Agenda) : a.drop.cycle = a.cycle := rfl
@[simp] theorem drop_next (a : Agenda) : a.drop.next = a.left := rfl
@[simp] theorem drop_frees (a : Agenda) : a.drop.frees = countFree a.frees a.head := rfl

/-- With the executor first, the executor's is the next turn. -/
@[simp] theorem executorFirst_event (a : Agenda) : a.executorFirst.event = none := by
  unfold Agenda.executorFirst
  split
  · next h => simp only [Agenda.event, h]
  · rfl
  · rfl

/-- A free turn is the next value of Config.freeTurn, and is counted. -/
theorem free_turn {s : State} (h : s.agenda.head = .free) :
    s.turn = Config.freeTurn s.agenda.frees ∧ s.dropTurn.agenda.frees = s.agenda.frees + 1 := by
  simp [State.turn, Agenda.event, State.dropTurn, countFree, h]

/-- Where both lists are empty the executor moves, and the agenda stays as it is. -/
theorem executor_alone {s : State} (hn : s.agenda.next = []) (hc : s.agenda.cycle = []) :
    s.turn = none ∧ s.dropTurn = s := by
  rcases s with ⟨_, _, _, _, _, _, _, _, _, _, _, _, _, ⟨n, c, k⟩⟩
  cases hn; cases hc; exact ⟨rfl, rfl⟩

/-! ### Steps -/

/-- Where the executor moves next, a step is its step on the state with the turn taken. -/
theorem step_executor {s : State} (h : s.turn = none) : step s = executorStep s.dropTurn := by simp only [step, h]

/-- A step that takes an event's turn. -/
theorem step_event {s : State} {e : Event} (h : s.turn = some e) : step s = eventState (perform e s.dropTurn) := by
  simp only [step, h]

/-- The executor's step in status RUNNING from a pc that can be fetched from. -/
theorem executorStep_running {s : State} (hs : s.status = .running) (hp : s.pc.toNat ≤ 0xFFE) :
    executorStep s = runDecoded (decode s.params.decode s.opcodeAtPc) s.opcodeAtPc s.advancePc := by
  simp only [executorStep, hs, fetch_ok hp]

/-- The executor's step in status RUNNING from a pc that cannot be fetched from. -/
theorem executorStep_fetch_error {s : State} (hs : s.status = .running) (hp : ¬ s.pc.toNat ≤ 0xFFE) :
    executorStep s
      = .next (takeError (.outOfBoundsAccess (if s.pc.toNat = 0xFFF then 0x1000 else s.pc.toNat)) s) := by
  simp only [executorStep, hs, fetch_error hp]

/-- Where an opcode is placed, the executor moves next. -/
theorem placeOpcode_turn (s : State) (op : Word) : (s.placeOpcode op).turn = none := executorFirst_event _

/-- The very next step of a state with a table word placed fetches and runs that word. -/
theorem step_withFetchWord (s : State) (nbits w : Nat) :
    step (s.withFetchWord nbits w)
      = runDecoded (decode s.params.decode (tableOpcode nbits w)) (tableOpcode nbits w)
          (s.withFetchWord nbits w).dropTurn.advancePc := by
  unfold State.withFetchWord
  generalize tableOpcode nbits w = op
  have h : (s.placeOpcode op).dropTurn.opcodeAtPc = op := placeOpcode_opcodeAtPc s op
  have hp : (s.placeOpcode op).dropTurn.params = s.params := rfl
  rw [step_executor (placeOpcode_turn s op), executorStep_running rfl (fetchablePc_le s.pc), h, hp]

/-- A pc that can be fetched from goes up by exactly 2. -/
theorem advancePc_toNat {s : State} (h : s.pc.toNat ≤ 0xFFE) : s.advancePc.pc.toNat = s.pc.toNat + 2 := by
  simp; omega

end Sys2Proof.Machine
end

