-- ==== Sys2Proof/Laws/Frames.lean ====
section
/-! SUPPORT. Frames: Unchanged is reflexive and transitive, and each shared operation keeps what it does not write. -/

namespace Sys2Proof.Machine

theorem Unchanged.refl (w : Writes) (s : State) : Unchanged w s s := by simp [Unchanged]
theorem Unchanged.trans {w : Writes} {s t u : State} (h : Unchanged w s t) (k : Unchanged w t u) :
    Unchanged w s u := by
  simp only [Unchanged] at *
  obtain ⟨h1, h2, h3, h4, h5, h6, h7, h8, h9, h10, h11, h12, h13, h14⟩ := h
  obtain ⟨k1, k2, k3, k4, k5, k6, k7, k8, k9, k10, k11, k12, k13, k14⟩ := k
  refine ⟨fun r hr => (k1 r hr).trans (h1 r hr), fun q => (k2 q).trans (h2 q), fun q => (k3 q).trans (h3 q),
   fun q => (k4 q).trans (h4 q), fun q => (k5 q).trans (h5 q), fun q => (k6 q).trans (h6 q), fun q x y => (k7 q x y).trans (h7 q x y),
   fun q => (k8 q).trans (h8 q), fun q => (k9 q).trans (h9 q), fun r hr => (k10 r hr).trans (h10 r hr), fun q => (k11 q).trans (h11 q),
   fun q => (k12 q).trans (h12 q), k13.trans h13, k14.trans h14⟩

/-- An instruction's outcome keeps what its writes keep, if the status is among what may change. -/
theorem Unchanged.outcome {w : Writes} {s t : State} {r : Effect} (hst : w.status = true) (h : Unchanged w s r.state)
    (ht : r.outcome = .next t) : Unchanged w s t := by
  cases r with
  | done u => simp at ht; subst ht; exact h
  | raised e u => simp at ht; subst ht; simp only [Effect.state, Unchanged] at *; simp_all

/-- Taking an error is all that takeError does. -/
theorem takeError_tookError (e : Error) (s : State) : TookError e s (takeError e s) := by simp [TookError, Unchanged]

theorem memWrite_unchanged {w : Writes} {a : Nat} {b : Byte} {s : State} (h : a ∈ w.mem) :
    Unchanged w s (memWrite a b s).state := by
  unfold memWrite; split
  · simp only [Effect.state, Unchanged]; simp_all
    intro c hc e; subst e; exact absurd h hc
  · exact Unchanged.refl _ _

theorem andThen_unchanged {w : Writes} {s : State} {r : Effect} {f : State → Effect} (h : Unchanged w s r.state)
    (hf : ∀ t, Unchanged w t (f t).state) : Unchanged w s (r.andThen f).state := by
  cases r with
  | done t => exact h.trans (hf t)
  | raised e t => exact h

theorem readInto_unchanged {w : Writes} {a : Nat} {k : Byte → State → Effect} {s : State}
    (h : ∀ b, Unchanged w s (k b s).state) : Unchanged w s (readInto a k s).state := by
  by_cases ha : a ≤ 0xFFF
  · rw [readInto_ok ha]; exact h _
  · rw [readInto_error ha]; exact Unchanged.refl _ _

theorem forEach_unchanged {α : Type} {w : Writes} {f : α → State → Effect} {l : List α}
    (pass : ∀ a ∈ l, ∀ s, Unchanged w s (f a s).state) (s : State) : Unchanged w s (Effect.forEach f l s).state :=
  forEach_state_rel (Unchanged w) (Unchanged.refl w) (fun _ _ _ => Unchanged.trans) pass s

end Sys2Proof.Machine
end

