-- ==== Sys2Proof/Laws/Loops.lean ====
section
/-! SUPPORT. The loops of FX55 and FX65, one pass at a time, and the decimal digits. -/

namespace Sys2Proof.Machine

/-- The digits of a byte as numbers. -/
theorem digits_toNat (b : Byte) :
    (hundreds b).toNat = b.toNat / 100 ∧ (tens b).toNat = b.toNat / 10 % 10 ∧ (units b).toNat = b.toNat % 10 := by
  have := b.isLt
  simp [hundreds, tens, units]; omega

/-- The numbers below `n`, split at `k`. -/
theorem range_split {k n : Nat} (h : k < n) : ∃ m, List.range n = List.range k ++ k :: m := by
  obtain ⟨d, rfl⟩ := Nat.exists_eq_add_of_lt h
  refine ⟨(List.range d).map (k + 1 + ·), ?_⟩
  rw [show k + d + 1 = k + (d + 1) by omega, List.range_add, List.range_succ_eq_map]
  simp [Function.comp_def]; intro a ha; omega

/-- I after the whole range fits and is exact. -/
theorem indexAfter_toNat (s : State) (x : RegIx) (h : s.dataAddr x.toNat ≤ 0xFFF) :
    (indexAfter s.i x).toNat = s.i.toNat + x.toNat + 1 := by
  simp [State.dataAddr] at h
  have := x.isLt
  simp [indexAfter]; omega

/-- One pass of FX55. -/
def storePass (s : State) (t : State) (k : Nat) : State := t.putByte (s.dataAddr k) (t.v (regOf k))

/-- What `n` passes of FX55 store and leave alone. -/
theorem store_passes (s : State) (n : Nat) :
   (∀ k, k < n → ((List.range n).foldl (storePass s) s).byteAt (s.dataAddr k) = s.v (regOf k)) ∧
   Unchanged { mem := (List.range n).map s.dataAddr } s ((List.range n).foldl (storePass s) s) := by
  induction n with
  | zero => simp [Unchanged]
  | succ n ih =>
    rw [List.range_succ, List.foldl_append]
    simp only [List.foldl_cons, List.foldl_nil, List.map_append]
    generalize (List.range n).foldl (storePass s) s = t at *
    obtain ⟨ih, hu⟩ := ih
    unfold storePass
    have hv : ∀ r, t.v r = s.v r := fun r => hu.1 r (by simp)
    constructor
    · intro k hk
      simp only [putByte_byteAt]
      by_cases h : k = n
      · subst h; simp [hv]
      · rw [if_neg (by simp [State.dataAddr]; omega)]
        exact ih k (by omega)
    · simp only [Unchanged] at *
      simp_all

/-- One pass of FX65. -/
def loadPass (s : State) (t : State) (k : Nat) : State := t.setV (regOf k) (t.byteAt (s.dataAddr k))

/-- What `n` passes of FX65 load and leave alone. -/
theorem load_passes (s : State) (n : Nat) (hn : n ≤ 16) :
   (∀ k, k < n → ((List.range n).foldl (loadPass s) s).v (regOf k) = s.byteAt (s.dataAddr k)) ∧
   Unchanged { regs := (List.range n).map regOf } s ((List.range n).foldl (loadPass s) s) := by
  induction n with
  | zero => simp [Unchanged]
  | succ n ih =>
    specialize ih (by omega)
    rw [List.range_succ, List.foldl_append]
    simp only [List.foldl_cons, List.foldl_nil, List.map_append]
    generalize (List.range n).foldl (loadPass s) s = t at *
    obtain ⟨ih, hu⟩ := ih
    unfold loadPass
    have hb : ∀ a, t.byteAt a = s.byteAt a := fun a => hu.2.2.2.2.2.2.2.2.2.1 a (by simp)
    constructor
    · intro k hk
      by_cases h : k = n
      · subst h; simp [hb]
      · rw [setV_v, if_neg, ih k (by omega)]
        intro e
        have := congrArg BitVec.toNat e
        simp [regOf] at this; omega
    · simp only [Unchanged] at *
      simp_all

end Sys2Proof.Machine
end

