-- ==== Sys2Proof/Laws/PerInstr.lean ====
section
/-! SUPPORT. One lemma for each constructor of Instr: the fixed bits of its encoding are those of its row of
spec/opcode_table.json. -/

namespace Sys2Proof.Laws.OpcodeRow

/-- The mask of a row of the opcode table, under the default parameters. -/
def mask : Instr → Word
  | .cls | .ret => 0xFFFF#16
  | .sys _ | .jp _ | .call _ | .seImm _ _ | .sneImm _ _ | .seReg _ _ _ | .ldImm _ _ | .addImm _ _ => 0xF000#16
  | .sneReg _ _ _ | .ldI _ | .jpV0 _ | .rnd _ _ | .drw _ _ _ => 0xF000#16
  | .ldReg _ _ | .orReg _ _ | .andReg _ _ | .xorReg _ _ | .addReg _ _ | .sub _ _ | .shr _ _ | .subn _ _ => 0xF00F#16
  | .shl _ _ => 0xF00F#16
  | .skp _ | .sknp _ | .ldVxDt _ | .ldVxK _ | .ldDtVx _ | .ldStVx _ | .addI _ | .ldF _ | .ldBcd _ => 0xF0FF#16
  | .ldMemVx _ | .ldVxMem _ => 0xF0FF#16

/-- The match value of a row of the opcode table. -/
def value : Instr → Word
  | .sys _ => 0x0000#16 | .cls => 0x00E0#16 | .ret => 0x00EE#16 | .jp _ => 0x1000#16 | .call _ => 0x2000#16
  | .seImm _ _ => 0x3000#16 | .sneImm _ _ => 0x4000#16 | .seReg _ _ _ => 0x5000#16 | .ldImm _ _ => 0x6000#16
  | .addImm _ _ => 0x7000#16 | .ldReg _ _ => 0x8000#16 | .orReg _ _ => 0x8001#16 | .andReg _ _ => 0x8002#16
  | .xorReg _ _ => 0x8003#16 | .addReg _ _ => 0x8004#16 | .sub _ _ => 0x8005#16 | .shr _ _ => 0x8006#16
  | .subn _ _ => 0x8007#16 | .shl _ _ => 0x800E#16 | .sneReg _ _ _ => 0x9000#16 | .ldI _ => 0xA000#16
  | .jpV0 _ => 0xB000#16 | .rnd _ _ => 0xC000#16 | .drw _ _ _ => 0xD000#16 | .skp _ => 0xE09E#16
  | .sknp _ => 0xE0A1#16 | .ldVxDt _ => 0xF007#16 | .ldVxK _ => 0xF00A#16 | .ldDtVx _ => 0xF015#16
  | .ldStVx _ => 0xF018#16 | .addI _ => 0xF01E#16 | .ldF _ => 0xF029#16 | .ldBcd _ => 0xF033#16
  | .ldMemVx _ => 0xF055#16 | .ldVxMem _ => 0xF065#16

/-- The encoding carries the fixed bits of its row. -/
def Statement (i : Instr) : Prop := encode i &&& mask i = value i

/-- A row that fixes the family only. -/
theorem fixed_family (t : Nibble) (a : Addr12) : formatA t a &&& 0xF000#16 = t ++ 0#12 := by
  rw [show (0xF000#16 : Word) = BitVec.allOnes 4 ++ 0#12 by decide, formatA, BitVec.and_append, BitVec.and_allOnes, BitVec.and_zero]

/-- A row of formats RB and RF that fixes the family only. -/
theorem fixed_family_of_rb (t x : Nibble) (nn : Byte) : formatRB t x nn &&& 0xF000#16 = t ++ 0#4 ++ 0#8 := by
  rw [show (0xF000#16 : Word) = BitVec.allOnes 4 ++ 0#4 ++ 0#8 by decide, formatRB, BitVec.and_append,
    BitVec.and_append]
  simp only [BitVec.and_allOnes, BitVec.and_zero]

/-- A row that fixes the family and the low byte. -/
theorem fixed_family_and_byte (t x : Nibble) (nn : Byte) : formatRB t x nn &&& 0xF0FF#16 = t ++ 0#4 ++ nn := by
  rw [show (0xF0FF#16 : Word) = BitVec.allOnes 4 ++ 0#4 ++ BitVec.allOnes 8 by decide, formatRB, BitVec.and_append,
    BitVec.and_append]
  simp only [BitVec.and_allOnes, BitVec.and_zero]

/-- A row of formats RR and D that fixes the family only. -/
theorem fixed_family_of_rr (t x y n : Nibble) : formatRR t x y n &&& 0xF000#16 = t ++ 0#4 ++ 0#4 ++ 0#4 := by
  rw [show (0xF000#16 : Word) = BitVec.allOnes 4 ++ 0#4 ++ 0#4 ++ 0#4 by decide, formatRR, BitVec.and_append,
    BitVec.and_append, BitVec.and_append]
  simp only [BitVec.and_allOnes, BitVec.and_zero]

/-- A row that fixes the family and the low nibble. -/
theorem fixed_family_and_nibble (t x y n : Nibble) : formatRR t x y n &&& 0xF00F#16 = t ++ 0#4 ++ 0#4 ++ n := by
  rw [show (0xF00F#16 : Word) = BitVec.allOnes 4 ++ 0#4 ++ 0#4 ++ BitVec.allOnes 4 by decide, formatRR, BitVec.and_append,
    BitVec.and_append, BitVec.and_append]
  simp only [BitVec.and_allOnes, BitVec.and_zero]

theorem sys (nnn : Addr12) : Statement (.sys nnn) := (fixed_family _ _).trans rfl
theorem cls : Statement (.cls) := by unfold Statement; decide
theorem ret : Statement (.ret) := by unfold Statement; decide
theorem jp (nnn : Addr12) : Statement (.jp nnn) := (fixed_family _ _).trans rfl
theorem call (nnn : Addr12) : Statement (.call nnn) := (fixed_family _ _).trans rfl
theorem seImm (x : RegIx) (nn : Byte) : Statement (.seImm x nn) := (fixed_family_of_rb _ _ _).trans rfl
theorem sneImm (x : RegIx) (nn : Byte) : Statement (.sneImm x nn) := (fixed_family_of_rb _ _ _).trans rfl
theorem seReg (x y : RegIx) (n : Nibble) : Statement (.seReg x y n) := (fixed_family_of_rr _ _ _ _).trans rfl
theorem ldImm (x : RegIx) (nn : Byte) : Statement (.ldImm x nn) := (fixed_family_of_rb _ _ _).trans rfl
theorem addImm (x : RegIx) (nn : Byte) : Statement (.addImm x nn) := (fixed_family_of_rb _ _ _).trans rfl
theorem ldReg (x y : RegIx) : Statement (.ldReg x y) := (fixed_family_and_nibble _ _ _ _).trans rfl
theorem orReg (x y : RegIx) : Statement (.orReg x y) := (fixed_family_and_nibble _ _ _ _).trans rfl
theorem andReg (x y : RegIx) : Statement (.andReg x y) := (fixed_family_and_nibble _ _ _ _).trans rfl
theorem xorReg (x y : RegIx) : Statement (.xorReg x y) := (fixed_family_and_nibble _ _ _ _).trans rfl
theorem addReg (x y : RegIx) : Statement (.addReg x y) := (fixed_family_and_nibble _ _ _ _).trans rfl
theorem sub (x y : RegIx) : Statement (.sub x y) := (fixed_family_and_nibble _ _ _ _).trans rfl
theorem shr (x y : RegIx) : Statement (.shr x y) := (fixed_family_and_nibble _ _ _ _).trans rfl
theorem subn (x y : RegIx) : Statement (.subn x y) := (fixed_family_and_nibble _ _ _ _).trans rfl
theorem shl (x y : RegIx) : Statement (.shl x y) := (fixed_family_and_nibble _ _ _ _).trans rfl
theorem sneReg (x y : RegIx) (n : Nibble) : Statement (.sneReg x y n) := (fixed_family_of_rr _ _ _ _).trans rfl
theorem ldI (nnn : Addr12) : Statement (.ldI nnn) := (fixed_family _ _).trans rfl
theorem jpV0 (nnn : Addr12) : Statement (.jpV0 nnn) := (fixed_family _ _).trans rfl
theorem rnd (x : RegIx) (nn : Byte) : Statement (.rnd x nn) := (fixed_family_of_rb _ _ _).trans rfl
theorem drw (x y : RegIx) (n : Nibble) : Statement (.drw x y n) := (fixed_family_of_rr _ _ _ _).trans rfl
theorem skp (x : RegIx) : Statement (.skp x) := (fixed_family_and_byte _ _ _).trans rfl
theorem sknp (x : RegIx) : Statement (.sknp x) := (fixed_family_and_byte _ _ _).trans rfl
theorem ldVxDt (x : RegIx) : Statement (.ldVxDt x) := (fixed_family_and_byte _ _ _).trans rfl
theorem ldVxK (x : RegIx) : Statement (.ldVxK x) := (fixed_family_and_byte _ _ _).trans rfl
theorem ldDtVx (x : RegIx) : Statement (.ldDtVx x) := (fixed_family_and_byte _ _ _).trans rfl
theorem ldStVx (x : RegIx) : Statement (.ldStVx x) := (fixed_family_and_byte _ _ _).trans rfl
theorem addI (x : RegIx) : Statement (.addI x) := (fixed_family_and_byte _ _ _).trans rfl
theorem ldF (x : RegIx) : Statement (.ldF x) := (fixed_family_and_byte _ _ _).trans rfl
theorem ldBcd (x : RegIx) : Statement (.ldBcd x) := (fixed_family_and_byte _ _ _).trans rfl
theorem ldMemVx (x : RegIx) : Statement (.ldMemVx x) := (fixed_family_and_byte _ _ _).trans rfl
theorem ldVxMem (x : RegIx) : Statement (.ldVxMem x) := (fixed_family_and_byte _ _ _).trans rfl

end Sys2Proof.Laws.OpcodeRow
end

