-- ==== Sys2Proof/Laws/Sprites.lean ====
section
/-! SUPPORT. Drawing as a list of toggles: what each toggle does to a pixel, to VF and to DIRTY, and DXYN's loops as one such
list. -/

namespace Sys2Proof.Machine

/-- A list of pixels toggled one after another. -/
def drawList (l : List (Nat × Nat)) (s : State) : State := l.foldl (fun t p => drawBit p.1 p.2 t) s

theorem drawList_cons (p : Nat × Nat) (l : List (Nat × Nat)) (s : State) :
    drawList (p :: l) s = drawList l (drawBit p.1 p.2 s) := rfl

/-- What drawing may write. -/
abbrev drawWrites : Writes := { regs := [vf], pixels := true, dirty := true }

theorem drawBit_unchanged (px py : Nat) (s : State) : Unchanged drawWrites s (drawBit px py s) := by
  unfold drawBit
  split <;> simp +contextual [Unchanged]

theorem drawList_unchanged (l : List (Nat × Nat)) (s : State) : Unchanged drawWrites s (drawList l s) := by
  induction l generalizing s with
  | nil => exact Unchanged.refl _ _
  | cons p l ih => exact Unchanged.trans (drawBit_unchanged _ _ _) (ih _)

/-- Every pixel of the list is one of the 64 x 32. -/
def InGrid (l : List (Nat × Nat)) : Prop := ∀ p ∈ l, p.1 < 64 ∧ p.2 < 32

theorem drawBit_pixel {x y : Nat} (hx : x < 64) (hy : y < 32) (s : State) (px py : Nat) :
    (drawBit x y s).pixel px py = (s.pixel px py ^^ decide ((px, py) = (x, y))) := by
  unfold drawBit
  rw [setDirty_pixel, togglePixel_pixel _ hx hy]
  split <;> simp

/-- A sum is odd when one of its terms is. -/
theorem odd_add (a b : Nat) : decide ((a + b) % 2 = 1) = (decide (a % 2 = 1) ^^ decide (b % 2 = 1)) := by
  rcases Nat.mod_two_eq_zero_or_one a with h | h <;> rcases Nat.mod_two_eq_zero_or_one b with k | k <;>
    simp [h, k, Nat.add_mod]

theorem hits_cons (p : Nat × Nat) (l : List (Nat × Nat)) (px py : Nat) :
    hits (p :: l) px py = hits l px py + (if (px, py) = p then 1 else 0) := by
  unfold hits; rw [List.count_cons]; congr 1
  by_cases h : p = (px, py)
  · subst h; simp
  · have h' : ¬ (px, py) = p := fun e => h e.symm
    rw [if_neg h', if_neg (by simpa using h)]

/-- A pixel is flipped when the list reaches it an odd number of times. -/
theorem drawList_pixel (l : List (Nat × Nat)) (hl : InGrid l) (s : State) (px py : Nat) :
    (drawList l s).pixel px py = (s.pixel px py ^^ decide (hits l px py % 2 = 1)) := by
  induction l generalizing s with
  | nil => simp [drawList, hits]
  | cons p l ih =>
    obtain ⟨h1, h2⟩ := hl p (by simp)
    rw [drawList_cons, ih (fun q hq => hl q (by simp [hq])), drawBit_pixel h1 h2, hits_cons, odd_add]
    by_cases h : (px, py) = p <;> simp [h]

/-- DIRTY is set when the list is not empty. -/
theorem drawList_dirty (l : List (Nat × Nat)) (s : State) : (drawList l s).dirty = (s.dirty || !l.isEmpty) := by
  induction l generalizing s with
  | nil => simp [drawList]
  | cons p l ih => rw [drawList_cons, ih]; simp [drawBit]

theorem drawBit_vf (x y : Nat) (s : State) : (drawBit x y s).v vf = if s.pixel x y then 1#8 else s.v vf := by
  unfold drawBit; split <;> simp [flagByte, *]

theorem collides_cons {s : State} {p : Nat × Nat} {l : List (Nat × Nat)} (h1 : p.1 < 64) (h2 : p.2 < 32) :
    collides s (p :: l) ↔ s.pixel p.1 p.2 = true ∨ collides (drawBit p.1 p.2 s) l := by
  have key : ∀ (before : List (Nat × Nat)) (x y : Nat),
      (s.pixel x y ^^ decide (hits (p :: before) x y % 2 = 1))
        = ((drawBit p.1 p.2 s).pixel x y ^^ decide (hits before x y % 2 = 1)) := by
    intro before x y
    rw [drawBit_pixel h1 h2, hits_cons, odd_add]
    by_cases h : (x, y) = p <;> simp [h]
  constructor
  · rintro ⟨before, x, y, after, h, hc⟩
    cases before with
    | nil => simp at h; obtain ⟨rfl, rfl⟩ := h; left; simpa [hits] using hc
    | cons q before =>
      simp at h; obtain ⟨rfl, rfl⟩ := h
      right; exact ⟨before, x, y, after, rfl, by rwa [← key]⟩
  · rintro (h | ⟨before, x, y, after, rfl, hc⟩)
    · exact ⟨[], p.1, p.2, l, rfl, by simpa [hits] using h⟩
    · exact ⟨p :: before, x, y, after, rfl, by rwa [key]⟩

/-- VF becomes 1 when the list turns a set pixel off, and stays otherwise. -/
theorem drawList_vf (l : List (Nat × Nat)) (hl : InGrid l) (s : State) (h01 : s.v vf = 0#8 ∨ s.v vf = 1#8) :
    (collides s l → (drawList l s).v vf = 1#8) ∧ (¬ collides s l → (drawList l s).v vf = s.v vf) := by
  induction l generalizing s with
  | nil =>
    refine ⟨?_, fun _ => rfl⟩
    rintro ⟨before, x, y, after, h, _⟩; simp at h
  | cons p l ih =>
    obtain ⟨h1, h2⟩ := hl p (by simp)
    rw [collides_cons h1 h2, drawList_cons]
    have h01' : (drawBit p.1 p.2 s).v vf = 0#8 ∨ (drawBit p.1 p.2 s).v vf = 1#8 := by
      rw [drawBit_vf]; split <;> simp [h01]
    have ih := ih (fun q hq => hl q (by simp [hq])) _ h01'
    rw [drawBit_vf] at ih
    by_cases hc : collides (drawBit p.1 p.2 s) l
    · exact ⟨fun _ => ih.1 hc, fun h => absurd (.inr hc) h⟩
    · have := ih.2 hc
      refine ⟨fun h => ?_, fun h => ?_⟩
      · rcases h with h | h
        · rw [this, if_pos h]
        · exact absurd h hc
      · rw [this, if_neg (fun q => h (.inl q))]

/-! ### The rows of a sprite -/

/-- One row as a list of toggles. -/
theorem drawRow_eq (x0 y : Nat) (b : Byte) (s : State) :
    drawRow x0 y b s
      = drawList (((List.range 8).filter fun col => b.getLsbD (7 - col)).map fun col => (min (x0 + col) 63, min y 31)) s := by
  unfold drawRow drawList
  rw [List.foldl_map, List.foldl_filter]; rfl

/-- The pixels of one row of a sprite. -/
def rowPixels (s : State) (x y : RegIx) (row : Nat) : List (Nat × Nat) :=
  ((List.range 8).filter fun col => (s.byteAt (s.i.toNat + row)).getLsbD (7 - col)).map fun col =>
    (min ((s.v x).toNat + col) 63, min ((s.v y).toNat + row) 31)

/-- One row drawn on `t`, the origin and the address taken from `s`. -/
def rowStep (s : State) (x y : RegIx) (t : State) (row : Nat) : State :=
  drawRow (s.v x).toNat ((s.v y).toNat + row) (t.byteAt (s.dataAddr row)) t

/-- The first `n` rows as one list of toggles. -/
theorem rows_eq (s s0 : State) (x y : RegIx) (n : Nat) (h0 : ∀ a, s0.byteAt a = s.byteAt a) :
    (List.range n).foldl (rowStep s x y) s0 = drawList ((List.range n).flatMap (rowPixels s x y)) s0 := by
  induction n with
  | zero => rfl
  | succ n ih =>
    rw [List.range_succ, List.foldl_append, ih, List.flatMap_append]
    simp only [List.foldl_cons, List.foldl_nil, rowStep, drawRow_eq]
    have hb : ∀ a, (drawList ((List.range n).flatMap (rowPixels s x y)) s0).byteAt a = s.byteAt a :=
      fun a => ((drawList_unchanged _ _).2.2.2.2.2.2.2.2.2.1 a (by simp)).trans (h0 a)
    rw [hb]
    simp [drawList, rowPixels, State.dataAddr]

/-- A sprite is toggled inside the grid. -/
theorem sprite_inGrid (s : State) (x y : RegIx) (n : Nat) : InGrid ((List.range n).flatMap (rowPixels s x y)) := by
  intro p hp
  simp [rowPixels] at hp
  obtain ⟨a, _, c, _, rfl⟩ := hp
  refine ⟨?_, ?_⟩ <;> dsimp only <;> omega

end Sys2Proof.Machine
end

