-- ==== Sys2Proof/Tests/Slice0.lean ====
section
/-! SUPPORT. Tests of single steps, their expected results taken from spec/95_test_vectors.md (the vector's name is in each
docstring) or from the encodings of spec/30_encoding.md, and a witness for the hypotheses of each obligation. -/

namespace Sys2Proof.Tests

open Sys2Proof.Machine

/-! ### Well-formedness: an ill-formed term for each check -/

theorem test_wf_refuses_sys_at_cls : (Instr.sys 0x0E0#12).wf ⟨.exact, .ignore⟩ = false := by decide
theorem test_wf_refuses_sys_at_ret : (Instr.sys 0x0EE#12).wf ⟨.exact, .ignore⟩ = false := by decide
theorem test_wf_refuses_sys_ending_in_E0 : (Instr.sys 0x1E0#12).wf ⟨.lowByte, .ignore⟩ = false := by decide
theorem test_wf_refuses_sys_ending_in_EE : (Instr.sys 0xFEE#12).wf ⟨.lowByte, .ignore⟩ = false := by decide
theorem test_wf_refuses_low_nibble_under_nop :
    (Instr.seReg 1#4 2#4 1#4).wf ⟨.exact, .nop⟩ = false ∧ (Instr.sneReg 1#4 2#4 1#4).wf ⟨.exact, .nop⟩ = false := by
  decide
theorem test_wf_refuses_low_nibble_under_fault :
    (Instr.seReg 1#4 2#4 15#4).wf ⟨.exact, .fault⟩ = false ∧ (Instr.sneReg 1#4 2#4 8#4).wf ⟨.exact, .fault⟩ = false := by
  decide

/-! ### Decoding: a word of every row, written from its pattern (rule R95) -/

/-- The word decodes to the instruction under the default parameters. -/
def reads (op : Word) (i : Instr) : Bool := decode DecodeParams.default op == .instr i

theorem test_decode_sys : reads 0b0000001100000000#16 (.sys 0x300#12) = true := by decide
theorem test_decode_cls : reads 0b0000000011100000#16 .cls = true := by decide
theorem test_decode_ret : reads 0b0000000011101110#16 .ret = true := by decide
theorem test_decode_jp : reads 0b0001001000001100#16 (.jp 0x20C#12) = true := by decide
theorem test_decode_call : reads 0x2210#16 (.call 0x210#12) = true := by decide
theorem test_decode_seImm : reads 0b0011111100000001#16 (.seImm 0xF#4 0x01#8) = true := by decide
theorem test_decode_sneImm : reads 0x4305#16 (.sneImm 0x3#4 0x05#8) = true := by decide
theorem test_decode_seReg : reads 0b0101000100100000#16 (.seReg 0x1#4 0x2#4 0x0#4) = true := by decide
theorem test_decode_ldImm : reads 0b0110101010011101#16 (.ldImm 0xA#4 0x9D#8) = true := by decide
theorem test_decode_addImm : reads 0x70FF#16 (.addImm 0x0#4 0xFF#8) = true := by decide
theorem test_decode_ldReg : reads 0x8AB0#16 (.ldReg 0xA#4 0xB#4) = true := by decide
theorem test_decode_or : reads 0x8AB1#16 (.orReg 0xA#4 0xB#4) = true := by decide
theorem test_decode_and : reads 0x8AB2#16 (.andReg 0xA#4 0xB#4) = true := by decide
theorem test_decode_xor : reads 0x8AB3#16 (.xorReg 0xA#4 0xB#4) = true := by decide
theorem test_decode_addReg : reads 0b1000101010110100#16 (.addReg 0xA#4 0xB#4) = true := by decide
theorem test_decode_sub : reads 0x8AB5#16 (.sub 0xA#4 0xB#4) = true := by decide
theorem test_decode_shr : reads 0x8AB6#16 (.shr 0xA#4 0xB#4) = true := by decide
theorem test_decode_subn : reads 0x8AB7#16 (.subn 0xA#4 0xB#4) = true := by decide
theorem test_decode_shl : reads 0x8ABE#16 (.shl 0xA#4 0xB#4) = true := by decide
theorem test_decode_sneReg : reads 0x912F#16 (.sneReg 0x1#4 0x2#4 0xF#4) = true := by decide
theorem test_decode_ldI : reads 0b1010111111111111#16 (.ldI 0xFFF#12) = true := by decide
theorem test_decode_jpV0 : reads 0xB300#16 (.jpV0 0x300#12) = true := by decide
theorem test_decode_rnd : reads 0xC30F#16 (.rnd 0x3#4 0x0F#8) = true := by decide
theorem test_decode_drw : reads 0b1101000100100011#16 (.drw 0x1#4 0x2#4 0x3#4) = true := by decide
theorem test_decode_skp : reads 0b1110000110011110#16 (.skp 0x1#4) = true := by decide
theorem test_decode_sknp : reads 0xE1A1#16 (.sknp 0x1#4) = true := by decide
theorem test_decode_ldVxDt : reads 0xF307#16 (.ldVxDt 0x3#4) = true := by decide
theorem test_decode_ldVxK : reads 0b1111001100001010#16 (.ldVxK 0x3#4) = true := by decide
theorem test_decode_ldDtVx : reads 0xF215#16 (.ldDtVx 0x2#4) = true := by decide
theorem test_decode_ldStVx : reads 0xF218#16 (.ldStVx 0x2#4) = true := by decide
theorem test_decode_addI : reads 0xF51E#16 (.addI 0x5#4) = true := by decide
theorem test_decode_ldF : reads 0xF429#16 (.ldF 0x4#4) = true := by decide
theorem test_decode_ldBcd : reads 0xF533#16 (.ldBcd 0x5#4) = true := by decide
theorem test_decode_ldMemVx : reads 0xF255#16 (.ldMemVx 0x2#4) = true := by decide
theorem test_decode_ldVxMem : reads 0xF265#16 (.ldVxMem 0x2#4) = true := by decide

/-- V8, V9, V10: words without a handler. -/
theorem test_decode_illegal :
    [0x8008#16, 0x800F#16, 0x812A#16, 0x812B#16, 0x812C#16, 0x812D#16, 0x8129#16, 0xE000#16, 0xE19F#16, 0xEFA0#16,
      0xF000#16, 0xF0FF#16, 0xF130#16, 0xF166#16].all
      (fun op => decode DecodeParams.default op == .unimplemented) = true := by decide

/-- V12, V13, V14: family 0 under its two readings. -/
theorem test_decode_family0 :
    decode ⟨.exact, .ignore⟩ 0x01E0#16 = .instr (.sys 0x1E0#12) ∧ decode ⟨.lowByte, .ignore⟩ 0x01E0#16 = .instr .cls ∧
    decode ⟨.exact, .ignore⟩ 0x0FEE#16 = .instr (.sys 0xFEE#12) ∧ decode ⟨.lowByte, .ignore⟩ 0x0FEE#16 = .instr .ret := by
  decide

/-- A table word, its bytes laid out as memory holds them. -/
theorem test_decodeTableWord :
    decodeTableWord 16 0xD123 = some (.drw 0x1#4 0x2#4 0x3#4) ∧ decodeTableWord 16 0x8008 = none ∧
    decodeTableWord 16 0x00E0 = some .cls := by decide

/-- Two bytes are an opcode, what follows is handed back, and one byte is none. -/
theorem test_decodeBytes :
    decodeBytes DecodeParams.default [0x60#8, 0x2A#8, 0x99#8] = some (.instr (.ldImm 0x0#4 0x2A#8), [0x99#8]) ∧
    decodeBytes DecodeParams.default [0x60#8] = none ∧ decodeBytes DecodeParams.default [] = none := by decide

/-! ### One step -/

/-- The very next step from `s` with the opcode placed at its pc ends in a next state with the property. -/
def runs (op : Nat) (s : State) (p : State → Bool) : Bool :=
  match step (s.withFetchWord 16 op) with
  | .next t => p t
  | .fault _ => false
  | .refused _ => false

/-- The outcome is this next value. -/
def nextIs {α : Type} [DecidableEq α] (o : Host.Outcome α Fault Refusal) (a : α) : Bool :=
  match o with
  | .next b => decide (b = a)
  | .fault _ => false
  | .refused _ => false

/-- The outcome is this refusal. -/
def refuses {α : Type} (o : Host.Outcome α Fault Refusal) (r : Refusal) : Bool :=
  match o with
  | .next _ => false
  | .fault _ => false
  | .refused q => decide (q = r)

/-- The reset state with one and with two registers set. -/
def one (x : RegIx) (a : Byte) : State := State.reset.setV x a
def two (x : RegIx) (a : Byte) (y : RegIx) (b : Byte) : State := (one x a).setV y b
/-- The reset state at another pc, and with I set. -/
def atPc (w : Word) : State := State.reset.setPc w
def withI (w : Word) : State := State.reset.setI w

/-- The reset state with an event first on the agenda. -/
def turn (e : Event) : State := { State.reset with agenda := { next := [.other e], cycle := [], frees := 0 } }

/-- V1 and V5: a step of the executor, at an odd address too. -/
theorem test_step : runs 0x602A State.reset (fun t => t.v 0#4 == 0x2A#8 && t.pc == 0x202#16) = true ∧
    runs 0x6105 (atPc 0x201#16) (fun t => t.v 1#4 == 0x05#8 && t.pc == 0x203#16) = true := by decide

/-- V2: the last legal fetch. -/
theorem test_step_last_fetch : runs 0x1200 (atPc 0xFFE#16) (fun t => t.pc == 0x200#16) = true := by decide

/-- V3: the second byte of the opcode is out of bounds, and pc stays. -/
theorem test_fetch_at_FFF :
    nextIs (step (atPc 0xFFF#16)) { atPc 0xFFF#16 with status := .faulted (.outOfBoundsAccess 0x1000) } = true := by
  decide

/-- V4: the first byte of the opcode is out of bounds, and pc stays. -/
theorem test_fetch_at_1000 :
    nextIs (step (atPc 0x1000#16)) { atPc 0x1000#16 with status := .faulted (.outOfBoundsAccess 0x1000) } = true := by
  decide

/-- V6: no handler. -/
theorem test_unimplemented : runs 0x8008 State.reset
    (fun t => t.status == .faulted (.unimplementedOpcode 0x8008#16) && t.pc == 0x202#16
      && t.stepResult == .error (.unimplementedOpcode 0x8008#16)) = true := by decide

/-- The numeric codes of the errors (rule R301). -/
theorem test_error_codes :
    [Error.programLoadError, .stackUnderflow, .unimplementedOpcode 0#16, .outOfBoundsAccess 0, .stackOverflow].map
      Error.code = [1, 2, 3, 4, 5] := by decide

/-- V11 and C1. -/
theorem test_sys : runs 0x0000 State.reset (fun t => t.pc == 0x000#16 && t.status == .running) = true ∧
    runs 0x0300 State.reset (fun t => t.pc == 0x300#16) = true := by decide

/-- D1 and E2. -/
theorem test_cls : runs 0x00E0 ((one vf 0x55#8).togglePixel 7 3)
    (fun t => !t.pixel 7 3 && t.dirty && t.v vf == 0x55#8 && t.pc == 0x202#16) = true := by decide

/-- C5 and C6. -/
theorem test_ret : runs 0x00EE { atPc 0x210#16 with stack := [0x206#16] }
      (fun t => t.pc == 0x206#16 && t.stack == []) = true ∧
    runs 0x00EE State.reset (fun t => t.status == .faulted .stackUnderflow && t.pc == 0x202#16) = true := by decide

/-- C2 and C3. -/
theorem test_jp : runs 0x1FFF State.reset (fun t => t.pc == 0xFFF#16 && t.status == .running) = true ∧
    runs 0x120C (atPc 0x20C#16) (fun t => t.pc == 0x20C#16) = true := by decide

/-- C4 and C9. -/
theorem test_call : runs 0x2210 (atPc 0x204#16) (fun t => t.pc == 0x210#16 && t.stack == [0x206#16]) = true ∧
    runs 0x2300 (atPc 0xFFE#16) (fun t => t.pc == 0x300#16 && t.stack == [0x1000#16]) = true := by decide

/-- C7. -/
theorem test_call_overflow :
    runs 0x2300 { atPc 0x210#16 with stack := [0x206#16], params := { Params.default with stackDepth := some 1 } }
      (fun t => t.status == .faulted .stackOverflow && t.pc == 0x212#16 && t.stack == [0x206#16]) = true := by decide

/-- C12 and C13. -/
theorem test_jpV0 : runs 0xBFFF (one 0#4 0xFF#8) (fun t => t.pc == 0x10FE#16) = true ∧
    runs 0xB500 (two 0#4 0x02#8 5#4 0x40#8) (fun t => t.pc == 0x502#16) = true := by decide

/-- S1, S2 and S16. -/
theorem test_seImm : runs 0x3000 (atPc 0x208#16) (fun t => t.pc == 0x20C#16) = true ∧
    runs 0x3000 ((one 0#4 1#8).setPc 0x208#16) (fun t => t.pc == 0x20A#16) = true ∧
    runs 0x3000 (atPc 0xFFC#16) (fun t => t.pc == 0x1000#16 && t.status == .running) = true := by decide

/-- S4 and S5. -/
theorem test_sneImm : runs 0x4305 (one 3#4 0x05#8) (fun t => t.pc == 0x202#16) = true ∧
    runs 0x4305 (one 3#4 0x06#8) (fun t => t.pc == 0x204#16) = true := by decide

/-- S6, S7 and S9. -/
theorem test_seReg : runs 0x5120 ((two 1#4 0x7F#8 2#4 0x7F#8).setPc 0x300#16) (fun t => t.pc == 0x304#16) = true ∧
    runs 0x5120 ((two 1#4 0x7F#8 2#4 0x7E#8).setPc 0x300#16) (fun t => t.pc == 0x302#16) = true ∧
    runs 0x5121 (atPc 0x300#16) (fun t => t.pc == 0x304#16) = true := by decide

/-- The reset state with another LOWNIB_59. -/
def lowNib (l : LowNib59) : State := { atPc 0x300#16 with params := { Params.default with decode := ⟨.exact, l⟩ } }

/-- S10 and S11. -/
theorem test_low_nibble : runs 0x5121 (lowNib .nop) (fun t => t.pc == 0x302#16 && t.status == .running) = true ∧
    runs 0x5121 (lowNib .fault)
      (fun t => t.status == .faulted (.unimplementedOpcode 0x5121#16) && t.pc == 0x302#16) = true := by decide

/-- A1 and A2. -/
theorem test_ldImm : runs 0x6A9D State.reset (fun t => t.v 0xA#4 == 0x9D#8) = true ∧
    runs 0x6F00 (one vf 0x55#8) (fun t => t.v vf == 0x00#8) = true := by decide

/-- A4 and the last row of E1. -/
theorem test_addImm : runs 0x7001 (two 0#4 0xFF#8 vf 0x55#8) (fun t => t.v 0#4 == 0#8 && t.v vf == 0x55#8) = true ∧
    runs 0x7F80 (one vf 0x80#8) (fun t => t.v vf == 0x00#8) = true := by decide

/-- A5. -/
theorem test_ldReg : runs 0x8010 (one 1#4 0x33#8) (fun t => t.v 0#4 == 0x33#8 && t.v 1#4 == 0x33#8) = true := by decide

/-- A6. -/
theorem test_or : runs 0x8011 ((two 0#4 0xF0#8 1#4 0x0F#8).setV vf 0x55#8)
    (fun t => t.v 0#4 == 0xFF#8 && t.v vf == 0x55#8) = true := by decide

/-- A7. -/
theorem test_and : runs 0x8012 (two 0#4 0xF0#8 1#4 0x3C#8) (fun t => t.v 0#4 == 0x30#8) = true := by decide

/-- A8 and A9. -/
theorem test_xor : runs 0x8013 (two 0#4 0xF0#8 1#4 0x3C#8) (fun t => t.v 0#4 == 0xCC#8) = true ∧
    runs 0x8003 (one 0#4 0xA5#8) (fun t => t.v 0#4 == 0x00#8) = true := by decide

/-- E4, A12 and A16. -/
theorem test_addReg : runs 0x8014 (two 0#4 0xFF#8 1#4 0x11#8) (fun t => t.v 0#4 == 0x10#8 && t.v vf == 1#8) = true ∧
    runs 0x8014 (two 0#4 0x7F#8 1#4 0x80#8) (fun t => t.v 0#4 == 0xFF#8 && t.v vf == 0#8) = true ∧
    runs 0x81F4 (two 1#4 0x10#8 vf 0xF0#8) (fun t => t.v 1#4 == 0x00#8 && t.v vf == 1#8) = true := by decide

/-- A14 and A15: the carry is written last. -/
theorem test_addReg_into_vf : runs 0x8F14 (two vf 0xFF#8 1#4 1#8) (fun t => t.v vf == 1#8) = true ∧
    runs 0x8F14 (two vf 1#8 1#4 1#8) (fun t => t.v vf == 0#8) = true := by decide

/-- A18 and A19. -/
theorem test_sub : runs 0x8015 (two 0#4 0x22#8 1#4 0x22#8) (fun t => t.v 0#4 == 0#8 && t.v vf == 1#8) = true ∧
    runs 0x8015 (two 0#4 0x00#8 1#4 0x01#8) (fun t => t.v 0#4 == 0xFF#8 && t.v vf == 0#8) = true := by decide

/-- A20: the difference is written last. -/
theorem test_sub_into_vf : runs 0x8F15 (two vf 0x10#8 1#4 1#8) (fun t => t.v vf == 0x0F#8) = true := by decide

/-- A25 and A26: Y is ignored, and the shifted value is written last. -/
theorem test_shr : runs 0x8236 (two 2#4 0x05#8 3#4 0xFF#8) (fun t => t.v 2#4 == 0x02#8 && t.v vf == 1#8) = true ∧
    runs 0x8F06 (one vf 0x03#8) (fun t => t.v vf == 0x01#8) = true := by decide

/-- A27 and A30. -/
theorem test_subn : runs 0x8017 (two 0#4 0x11#8 1#4 0x10#8) (fun t => t.v 0#4 == 0xFF#8 && t.v vf == 0#8) = true ∧
    runs 0x8F17 (two vf 0x01#8 1#4 0x05#8) (fun t => t.v vf == 0x04#8) = true := by decide

/-- A31, A33 and A34. -/
theorem test_shl : runs 0x822E (one 2#4 0x81#8) (fun t => t.v 2#4 == 0x02#8 && t.v vf == 1#8) = true ∧
    runs 0x820E (one 2#4 0x7F#8) (fun t => t.v 2#4 == 0xFE#8 && t.v vf == 0#8) = true ∧
    runs 0x8F0E (one vf 0x81#8) (fun t => t.v vf == 0x02#8) = true := by decide

/-- S12 and S13. -/
theorem test_sneReg : runs 0x9120 (two 1#4 1#8 2#4 2#8) (fun t => t.pc == 0x204#16) = true ∧
    runs 0x9110 (one 1#4 1#8) (fun t => t.pc == 0x202#16) = true := by decide

/-- M2. -/
theorem test_ldI : runs 0xAFFF State.reset (fun t => t.i == 0xFFF#16) = true := by decide

/-- A36: the mask 0x00 leaves 0 whatever byte is drawn, and the draw is counted. -/
theorem test_rnd : ∃ t, step ((one 3#4 0x77#8).withFetchWord 16 0xC300) = .next t ∧ t.v 3#4 = 0x00#8 ∧ t.draws = 1 := by
  refine ⟨_, rfl, ?_, rfl⟩
  exact BitVec.and_zero

/-- A state with one byte at I = 0x300 and the registers that place a sprite. -/
def sprite (b : Byte) (x y : Byte) : State := ((two 0#4 x 1#4 y).setI 0x300#16).putByte 0x300 b

/-- D4 and D7: columns clamp at 63. -/
theorem test_drw_clamp :
    runs 0xD011 (sprite 0xF0#8 62#8 0#8)
      (fun t => t.pixel 62 0 && t.pixel 63 0 && t.v vf == 1#8 && t.dirty && !t.pixel 0 0) = true ∧
    runs 0xD011 (sprite 0x01#8 0xFE#8 0#8)
      (fun t => t.pixel 63 0 && !t.pixel 5 0 && t.v vf == 0#8) = true := by decide

/-- D3 and D10: a collision, and the column taken from the old VF. -/
theorem test_drw : runs 0xD011 ((sprite 0x80#8 0#8 0#8).togglePixel 0 0)
      (fun t => !t.pixel 0 0 && t.v vf == 1#8 && t.dirty && t.i == 0x300#16) = true ∧
    runs 0xDF01 ((sprite 0x80#8 0#8 0#8).setV vf 5#8) (fun t => t.pixel 5 0 && t.v vf == 0#8) = true := by decide

/-- K1, K2 and K4. -/
theorem test_skp : runs 0xE19E { one 1#4 3#8 with key := 0x0008#16 } (fun t => t.pc == 0x204#16) = true ∧
    runs 0xE19E { one 1#4 5#8 with key := 0x0024#16 } (fun t => t.pc == 0x202#16) = true ∧
    runs 0xE19E { one 1#4 0x13#8 with key := 0x0008#16 } (fun t => t.pc == 0x202#16) = true := by decide

/-- K5, K6 and K7. -/
theorem test_sknp : runs 0xE1A1 (one 1#4 3#8) (fun t => t.pc == 0x204#16) = true ∧
    runs 0xE1A1 { one 1#4 3#8 with key := 0x0008#16 } (fun t => t.pc == 0x202#16) = true ∧
    runs 0xE1A1 { one 1#4 5#8 with key := 0x0024#16 } (fun t => t.pc == 0x204#16) = true := by decide

/-- K8. -/
theorem test_ldVxDt : runs 0xF307 (State.reset.setDt 0x2A#8) (fun t => t.v 3#4 == 0x2A#8 && t.dt == 0x2A#8) = true := by
  decide

/-- K9 and K11. -/
theorem test_ldVxK : runs 0xF00A (one 0#4 0x99#8)
      (fun t => t.pc == 0x200#16 && t.v 0#4 == 0x99#8 && t.stepResult == .ok) = true ∧
    runs 0xF00A { State.reset with key := 0x0210#16 }
      (fun t => t.v 0#4 == 4#8 && t.pc == 0x202#16 && t.key == 0x0210#16) = true := by decide

/-- K13. -/
theorem test_ldDtVx : runs 0xF215 (one 2#4 0x3C#8) (fun t => t.dt == 0x3C#8 && t.st == 0#8) = true := by decide

/-- K14. -/
theorem test_ldStVx : runs 0xF218 (one 2#4 0x05#8) (fun t => t.st == 0x05#8 && t.dt == 0#8) = true := by decide

/-- M3 and M6. -/
theorem test_addI : runs 0xF51E ((one 5#4 0x20#8).setI 0x0FF0#16) (fun t => t.i == 0x1010#16 && t.v vf == 0#8) = true ∧
    runs 0xF01E ((one 0#4 1#8).setI 0xFFFF#16)
      (fun t => t.status == .faulted (.outOfBoundsAccess 0x10000) && t.i == 0xFFFF#16) = true := by decide

/-- M8 and M11, with FONT_BASE = 0x050. -/
theorem test_ldF :
    runs 0xF429 { one 4#4 0x0A#8 with params := { Params.default with fontBase := 0x050 } }
      (fun t => t.i.toNat == 0x050 + 50) = true ∧
    runs 0xF429 { one 4#4 0xFF#8 with params := { Params.default with fontBase := 0x050 } }
      (fun t => t.i.toNat == 0x050 + 1275) = true := by decide

/-- E6. -/
theorem test_ldBcd : runs 0xF533 ((one 5#4 157#8).setI 0x300#16)
    (fun t => t.byteAt 0x300 == 1#8 && t.byteAt 0x301 == 5#8 && t.byteAt 0x302 == 7#8 && t.i == 0x300#16) = true := by
  decide

/-- M15. -/
theorem test_ldBcd_end : runs 0xF533 ((one 5#4 157#8).setI 0xFFE#16)
    (fun t => t.byteAt 0xFFE == 1#8 && t.byteAt 0xFFF == 5#8 && t.status == .faulted (.outOfBoundsAccess 0x1000)
      && t.i == 0xFFE#16) = true := by decide

/-- M16. -/
theorem test_ldMemVx : runs 0xF155 ((two 0#4 1#8 1#4 2#8).setI 0x300#16)
    (fun t => t.byteAt 0x300 == 1#8 && t.byteAt 0x301 == 2#8 && t.byteAt 0x302 == 0#8 && t.i == 0x302#16) = true := by
  decide

/-- M20. -/
theorem test_ldMemVx_end : runs 0xF255 ((two 0#4 1#8 1#4 2#8).setI 0xFFE#16)
    (fun t => t.byteAt 0xFFE == 1#8 && t.byteAt 0xFFF == 2#8 && t.status == .faulted (.outOfBoundsAccess 0x1000)
      && t.i == 0xFFE#16) = true := by decide

/-- M21. -/
theorem test_ldVxMem : runs 0xF265 ((((withI 0x300#16).putByte 0x300 1#8).putByte 0x301 5#8).putByte 0x302 7#8)
    (fun t => t.v 0#4 == 1#8 && t.v 1#4 == 5#8 && t.v 2#4 == 7#8 && t.i == 0x303#16) = true := by decide

/-- M23. -/
theorem test_ldVxMem_end : runs 0xF165 (((one 1#4 0x99#8).setI 0xFFF#16).putByte 0xFFF 0x44#8)
    (fun t => t.v 0#4 == 0x44#8 && t.v 1#4 == 0x99#8 && t.status == .faulted (.outOfBoundsAccess 0x1000)
      && t.i == 0xFFF#16) = true := by decide

/-! ### Ticks, host calls and reset -/

/-- T1, T3, T4 and T8: what one tick makes of DT. -/
theorem test_delayTick : (delayTick (State.reset.setDt 3#8)).dt = 2#8 ∧
    (delayTick { State.reset with params := { Params.default with restartDT := 0x10#8 } }).dt = 0x10#8 ∧
    (delayTick { State.reset with params := { Params.default with timerZero := .hold, restartDT := 0x10#8 } }).dt = 0#8 ∧
    (delayTick { State.reset with dt := 2#8, status := .faulted .stackUnderflow }).dt = 1#8 := by decide

/-- T5. -/
theorem test_soundTick :
    soundTick ((State.reset.setSt 1#8).setDt 5#8) = State.reset.setDt 5#8 := by decide

/-- H1, H2, H5 and D13. -/
theorem test_ports :
    nextIs (perform (.readPixel 64 0) State.reset) (.error (.outOfBoundsAccess 64), State.reset) = true ∧
    nextIs (perform (.setKeyPressed 16) State.reset) (.error (.outOfBoundsAccess 16), State.reset) = true ∧
    (readPixel 1 1 { State.reset.togglePixel 1 1 with status := .faulted .stackUnderflow }).1 = .pixel true ∧
    nextIs (perform .takeDirtyFlag (State.reset.setDirty true)) (.dirtyFlag true, State.reset) = true := by decide

/-- H3 and H4. -/
theorem test_unreset :
    refuses (step { State.reset with status := .unreset }) .calledBeforeReset = true ∧
    nextIs (perform (.setKeyPressed 5) { State.reset with status := .unreset })
      (.ok, { State.reset with status := .unreset, key := 0x0020#16 }) = true := by decide

/-- R1 and R2: a good image, from a fault, KEY unchanged. -/
theorem test_reset :
    nextIs
      (perform (.reset (some [0x12#8, 0x00#8]))
        { two 3#4 7#8 vf 1#8 with status := .faulted (.unimplementedOpcode 0x8008#16), key := 1#16, stack := [0#16] })
      (.ok, { State.reset with key := 1#16, mem := [(0x200, 0x12#8)] }) = true := by decide

/-- R3: an image that cannot be read. -/
theorem test_reset_without_image :
    nextIs (perform (.reset none) State.reset) (.error .programLoadError, { State.reset with status := .unreset })
      = true := by decide

/-- Turns in their order: those that come once, then the cycle from its start again (rule R326 admits every order). -/
theorem test_turns :
    let a : Agenda := { next := [.other .delayTick], cycle := [.other .soundTick, .executor], frees := 0 }
    a.head = .other .delayTick ∧ a.drop.head = .other .soundTick ∧ a.drop.drop.head = .executor ∧
      a.drop.drop.drop.head = .other .soundTick := by decide

/-- withFetchWord puts the executor before a turn of another agent and before a free turn. -/
theorem test_withFetchWord_turn :
    runs 0x602A (turn (.setKeyPressed 3)) (fun t => t.v 0#4 == 0x2A#8 && t.turn == some (.setKeyPressed 3)) = true ∧
    runs 0x602A { State.reset with agenda := { next := [], cycle := [.free], frees := 7 } }
      (fun t => t.v 0#4 == 0x2A#8 && t.agenda.head == .free) = true := by decide

/-- The font of rule R33: the first row of glyph 0 and the last row of glyph F. -/
theorem test_font : State.reset.byteAt 0x000 = 0xF0#8 ∧ State.reset.byteAt 0x04F = 0x80#8 ∧
    State.reset.byteAt 0x050 = 0x00#8 := by decide

/-- The memory of the reset state is in its canonical form. -/
theorem test_reset_memory_wf : Memory.wf State.reset.params.unlisted State.reset.mem = true := by decide

/-- Writing what an unlisted address reads as takes the pair away. -/
theorem test_write_canonical :
    Memory.write Params.default.unlisted 0x300 0x00#8 [(0x300, 0x07#8)] = [] ∧
    Memory.write Params.default.unlisted 0x000 0x00#8 [(0x300, 0x07#8)] = [(0x000, 0x00#8), (0x300, 0x07#8)] := by decide

/-! ### Witnesses: for each obligation with hypotheses, a state and operands that meet them together -/

/-- The reset state with an opcode at pc. -/
def placed (op : Nat) : State := State.reset.withFetchWord 16 op

theorem witness_DecodeOfEncodeIsTheInstruction :
    (Instr.drw 0xF#4 0xF#4 0xF#4).wf ⟨.exact, .fault⟩ = true ∧ (Instr.sys 0xFFF#12).wf ⟨.lowByte, .nop⟩ = true ∧
    (Instr.seReg 0xF#4 0x0#4 0xF#4).wf ⟨.lowByte, .ignore⟩ = true := by decide

theorem witness_EncodeOfDecodeIsTheOpcode : decode ⟨.exact, .nop⟩ 0x9FF0#16 = .instr (.sneReg 0xF#4 0xF#4 0x0#4) := by
  decide

theorem witness_WordsWithoutHandler : decode ⟨.lowByte, .ignore⟩ 0xFFFF#16 = .unimplemented ∧
    decode ⟨.exact, .ignore⟩ 0xE09F#16 = .unimplemented ∧ decode ⟨.exact, .ignore⟩ 0x800F#16 = .unimplemented := by decide

theorem witness_StepRunsTheDecodedInstruction :
    let s := (atPc 0xFFE#16).withFetchWord 16 0xF165
    s.turn = none ∧ s.status = .running ∧ s.pc.toNat ≤ 0xFFE ∧
      decode s.params.decode s.opcodeAtPc = .instr (.ldVxMem 0x1#4) := by decide

theorem witness_FetchOutsideMemoryFaults (w : Word) (h : w = 0xFFF#16 ∨ w = 0x1000#16 ∨ w = 0xFFFF#16) :
    (atPc w).turn = none ∧ (atPc w).status = .running ∧ 0xFFE < (atPc w).pc.toNat := by
  rcases h with rfl | rfl | rfl <;> exact ⟨rfl, rfl, by decide⟩

theorem witness_UnhandledOpcodeFaults :
    (placed 0x8008).turn = none ∧ (placed 0x8008).status = .running ∧ (placed 0x8008).pc.toNat ≤ 0xFFE ∧
      decode (placed 0x8008).params.decode (placed 0x8008).opcodeAtPc = .unimplemented := by decide

theorem witness_NopWordOnlyAdvancesPc : ∀ op ∈ [0x5121, 0x912F],
    let s := (lowNib .nop).withFetchWord 16 op
    s.turn = none ∧ s.status = .running ∧ s.pc.toNat ≤ 0xFFE ∧ s.params.decode.lowNib59 = .nop ∧
      s.opcodeAtPc.extractLsb' 12 4 ∈ [0x5#4, 0x9#4] ∧ s.opcodeAtPc.extractLsb' 0 4 ≠ 0#4 := by decide

theorem witness_FaultedStepChangesNothing :
    let s := { State.reset with status := .faulted .stackUnderflow, agenda := { next := [.executor], cycle := [.free], frees := 0 } }
    s.turn = none ∧ s.status = .faulted .stackUnderflow := by decide

theorem witness_CallsBeforeResetAreRefused :
    let s := { State.reset with status := .unreset }
    (s.status = .unreset ∧ s.turn = none) ∧
    (∃ u : State, u.status = .unreset ∧ u.turn = some (.readPixel 63 31)) ∧
    (∃ u : State, u.status = .unreset ∧ u.turn = some .takeDirtyFlag) :=
  ⟨by decide, ⟨{ turn (.readPixel 63 31) with status := .unreset }, rfl, rfl⟩,
    ⟨{ turn .takeDirtyFlag with status := .unreset }, rfl, rfl⟩⟩

theorem witness_SysAndJpJumpToNNN :
    (DecodeParams.default.family0 = .exact ∧ 0xFFF#12 ≠ 0x0E0#12 ∧ 0xFFF#12 ≠ 0x0EE#12) ∧
    (DecodeParams.default.family0 = .exact ∧ 0x0E1#12 ≠ 0x0E0#12 ∧ 0x0E1#12 ≠ 0x0EE#12) := by decide

theorem witness_RetPopsTheStack :
    { State.reset with stack := [0x1000#16] }.stack = 0x1000#16 :: [] ∧ State.reset.stack = [] := by decide

/-- The reset state with STACK_DEPTH = 1 and a stack. -/
def depthOne (stack : List Word) : State :=
  { State.reset with stack := stack, params := { Params.default with stackDepth := some 1 } }

theorem witness_CallPushesThePc :
    State.reset.params.stackDepth = none ∧
    (∃ n, (depthOne []).params.stackDepth = some n ∧ (depthOne []).stack.length < n) ∧
    ((depthOne [0x206#16]).params.stackDepth = some 1 ∧ 1 ≤ (depthOne [0x206#16]).stack.length) :=
  ⟨rfl, ⟨1, rfl, by decide⟩, by decide⟩

theorem witness_SubroutineReturnsAfterItsCall : ∃ (s t u : State),
    s.stackFull = false ∧ exec (.call 0x300#12) s = .next t ∧ u.stack = t.stack ∧ u.pc ≠ t.pc :=
  ⟨depthOne [], _, { State.reset with stack := [0x200#16], pc := 0x302#16 }, by decide, rfl, by decide, by decide⟩

theorem witness_JpV0AddsExactly :
    0xFFE < ((one 0#4 0x00#8).v 0x0#4).toNat + (0xFFF#12).toNat ∧
    0xFFE < ((one 0#4 0xFF#8).v 0x0#4).toNat + (0xFFF#12).toNat := by decide

theorem witness_SkipsOnARegister :
    DecodeParams.default.lowNib59 = .ignore ∧ 0xF#4 ≠ 0#4 ∧ (lowNib .fault).params.decode.lowNib59 = .fault := by decide

/-- The hypothesis of AddRegSumAndCarry, SubDifferenceAndNotBorrow, ShrHalvesAndKeepsTheLowBit, SubnDifferenceAndNotBorrow
and ShlDoublesAndKeepsTheHighBit, at the registers on either side of the range below VF. -/
theorem witness_FlagsOutsideVf : 0xE#4 ≠ vf ∧ 0x0#4 ≠ vf := by decide

theorem witness_AddIIsExactOrFaults :
    (one 0#4 0x0F#8 |>.setI 0xFFF0#16).i.toNat + ((one 0#4 0x0F#8 |>.setI 0xFFF0#16).v 0#4).toNat ≤ 0xFFFF ∧
    0xFFFF < (one 0#4 0x10#8 |>.setI 0xFFF0#16).i.toNat + ((one 0#4 0x10#8 |>.setI 0xFFF0#16).v 0#4).toNat := by decide

theorem witness_LdFPointsAtTheGlyph : Params.default.wf = true ∧
    { Params.default with fontBase := 0x1B0 }.wf = true ∧ { Params.default with fontBase := 0x1B1 }.wf = false := by decide

theorem witness_LdBcdStoresThreeDigits :
    (withI 0xFFD#16).dataAddr 2 ≤ 0xFFF ∧
    ∀ k, k < 3 → 0xFFF < (withI (0x1000#16 - BitVec.ofNat 16 k)).dataAddr k ∧
      ∀ j, j < k → (withI (0x1000#16 - BitVec.ofNat 16 k)).dataAddr j ≤ 0xFFF := by decide

theorem witness_LdMemVxStoresTheRegisters :
    (withI 0xFF0#16).dataAddr (0xF#4).toNat ≤ 0xFFF ∧
    ∀ k, k ≤ (0xF#4).toNat → 0xFFF < (withI (0x1000#16 - BitVec.ofNat 16 k)).dataAddr k ∧
      ∀ j, j < k → (withI (0x1000#16 - BitVec.ofNat 16 k)).dataAddr j ≤ 0xFFF := by decide

theorem witness_LdVxMemLoadsTheRegisters :
    (withI 0xFFF#16).dataAddr (0x0#4).toNat ≤ 0xFFF ∧
    ∀ k, k ≤ (0x1#4).toNat → 0xFFF < (withI (0x1000#16 - BitVec.ofNat 16 k)).dataAddr k ∧
      ∀ j, j < k → (withI (0x1000#16 - BitVec.ofNat 16 k)).dataAddr j ≤ 0xFFF := by decide

/-- V15: the two bytes at pc are the ones stored. -/
theorem witness_StoreIsSeenByTheNextFetch : ∃ (s t : State), 0 < (0x1#4).toNat ∧ s.dataAddr (0x1#4).toNat ≤ 0xFFF ∧
    s.pc.toNat = s.dataAddr 0 ∧ exec (.ldMemVx 0x1#4) s = .next t :=
  ⟨(two 0#4 0x62#8 1#4 0x2A#8).setI 0x200#16, _, by decide, by decide, by decide, rfl⟩

/-- The last two bytes of memory as a sprite of two rows, without and with a collision. -/
theorem witness_DrwTogglesTheSprite :
    let s := (withI 0xFFE#16).putByte 0xFFE 0x80#8
    let u := s.togglePixel 0 0
    (∀ row, row < (0x2#4).toNat → s.dataAddr row ≤ 0xFFF) ∧ s.spritePixels 0#4 1#4 0x2#4 = [(0, 0)] ∧
    (∀ row, row < (0x2#4).toNat → u.dataAddr row ≤ 0xFFF) ∧ collides u (u.spritePixels 0#4 1#4 0x2#4) := by
  refine ⟨by decide, by decide, by decide, [], 0, 0, [], by decide, by decide⟩

theorem witness_DrwWithoutCollision : ¬ collides State.reset [] := by
  rintro ⟨before, x, y, after, h, -⟩
  simp at h

theorem witness_DrwStopsAtTheEndOfMemory :
    (1 < (0x2#4).toNat ∧ 0xFFF < (withI 0xFFF#16).dataAddr 1 ∧ ∀ row, row < 1 → (withI 0xFFF#16).dataAddr row ≤ 0xFFF) ∧
    (0 < (0x1#4).toNat ∧ 0xFFF < (withI 0x1000#16).dataAddr 0 ∧ ∀ row, row < 0 → (withI 0x1000#16).dataAddr row ≤ 0xFFF) := by
  decide

theorem witness_DrawingTwiceRestoresThePixels : ∃ (s t u : State),
    (∀ row, row < (0x1#4).toNat → s.dataAddr row ≤ 0xFFF) ∧ exec (.drw 0#4 1#4 0x1#4) s = .next t ∧
    t.v 0#4 = s.v 0#4 ∧ t.v 1#4 = s.v 1#4 ∧ exec (.drw 0#4 1#4 0x1#4) t = .next u ∧
    (∀ p ∈ s.spritePixels 0#4 1#4 0x1#4, s.pixel p.1 p.2 = false) ∧ s.spritePixels 0#4 1#4 0x1#4 ≠ [] :=
  ⟨sprite 0xF0#8 62#8 31#8, _, _, by decide, rfl, by decide, by decide, rfl, by decide, by decide⟩

theorem witness_PressedKeyIsTheLowest :
    { State.reset with key := 0x8000#16 }.pressedKey = some 0xF#8 ∧ { State.reset with key := 0xFFFF#16 }.pressedKey = some 0#8 ∧
    State.reset.pressedKey = none := by decide

theorem witness_KeySkipsCompareTheLowestKey :
    let s := { one 1#4 0xF#8 with key := 0x8000#16 }
    let u := { one 1#4 0x10#8 with key := 0x8000#16 }
    (s.key.getLsbD (s.v 1#4).toNat = true ∧ ∀ j, j < (s.v 1#4).toNat → s.key.getLsbD j = false) ∧
    ¬ (u.key.getLsbD (u.v 1#4).toNat = true ∧ ∀ j, j < (u.v 1#4).toNat → u.key.getLsbD j = false) := by decide

theorem witness_LdVxKWaitsForAKey :
    (∀ j, j < 16 → State.reset.key.getLsbD j = false) ∧
    (15 < 16 ∧ { State.reset with key := 0x8000#16 }.key.getLsbD 15 = true ∧
      ∀ j, j < 15 → { State.reset with key := 0x8000#16 }.key.getLsbD j = false) ∧
    (0 < 16 ∧ { State.reset with key := 0xFFFF#16 }.key.getLsbD 0 = true ∧
      ∀ j, j < 0 → { State.reset with key := 0xFFFF#16 }.key.getLsbD j = false) := by decide

/-- The reset state with a tick next, timer values and a policy. -/
def tickState (e : Event) (d s : Byte) (p : TimerZeroPolicy) : State :=
  { turn e with dt := d, st := s, params := { Params.default with timerZero := p, restartDT := 9#8, restartST := 7#8 } }

theorem witness_TicksCountDown :
    let s := tickState .delayTick 1#8 0#8 .restart
    let u := tickState .soundTick 0#8 0#8 .hold
    ((s.turn = some .delayTick ∧ s.status ≠ .unreset ∧ s.dt ≠ 0#8) ∧
      ((tickState .delayTick 0#8 0#8 .restart).dt = 0#8 ∧
        (tickState .delayTick 0#8 0#8 .restart).params.timerZero = .restart) ∧
      { s with status := .unreset }.turn = some .delayTick) ∧
    ((u.turn = some .soundTick ∧ u.status ≠ .unreset ∧ u.st = 0#8 ∧ u.params.timerZero = .hold) ∧
      (tickState .soundTick 0#8 255#8 .hold).st ≠ 0#8 ∧
      { u with status := .unreset }.turn = some .soundTick) := by decide

theorem witness_KeyPortsSetAndClear : 15 < 16 ∧ ¬ 16 < 16 := by decide

theorem witness_KeyPressEndsTheWait :
    let s := { (placed 0xF30A) with agenda := { next := [.other (.setKeyPressed 15)], cycle := [], frees := 0 } }
    s.status = .running ∧ s.turn = some (.setKeyPressed 15) ∧ s.dropTurn.turn = none ∧ 15 < 16 ∧ s.key = 0#16 ∧ s.pc.toNat ≤ 0xFFE ∧
      s.opcodeAtPc = 0xF#4 ++ 0x3#4 ++ 0x0A#8 := by decide

theorem witness_FramebufferPorts :
    State.reset.status ≠ .unreset ∧ { State.reset with status := .faulted .stackUnderflow }.status ≠ .unreset ∧
      63 < 64 ∧ 31 < 32 := by decide

theorem witness_HostIndexErrors :
    16 ≤ 16 ∧ State.reset.status ≠ .unreset ∧ 64 ≤ 64 ∧ 63 < 64 ∧ 32 ≤ 32 := by decide

theorem witness_ResetLoadsTheProgram :
    (List.replicate 0xE00 (0x12#8 : Byte)).length ≤ 0xE00 ∧ State.reset.params.wf = true := by
  rw [List.length_replicate]; decide

theorem witness_ResetThatFails : 0xE00 < (List.replicate 0xE01 (0x12#8 : Byte)).length := by
  rw [List.length_replicate]; decide

theorem witness_StepKeepsTheInvariant : ∃ t, State.reset.inv = true ∧ step State.reset = .next t ∧ t.pc ≠ State.reset.pc :=
  ⟨_, by decide, rfl, by decide⟩

theorem witness_InstructionsWriteOnlyTheirTargets : ∃ t, exec (.ldMemVx 0xF#4) (withI 0xFF1#16) = .next t ∧
    t.status = .faulted (.outOfBoundsAccess 0x1000) := ⟨_, rfl, by decide⟩

theorem witness_OnlyResetLeavesFaulted : ∃ s t : State, step s = .next t ∧ s.status = .faulted .stackUnderflow ∧
    t.status = .running :=
  ⟨{ turn (.reset (some [])) with status := .faulted .stackUnderflow }, _, rfl, rfl, by decide⟩

/-- The executor and both timers, over and over. -/
theorem witness_FairRunsExist :
    let c := [.executor, .other .delayTick, .other .soundTick]
    let s := { State.reset with agenda := { next := [], cycle := c, frees := 0 } }
    s.status ≠ .unreset ∧ s.agenda.next = [] ∧ s.agenda.cycle = c ∧ c ≠ [] ∧
      ∀ t ∈ c, t = .executor ∨ t = .other .delayTick ∨ t = .other .soundTick ∨
        ∃ k, t = .other (.setKeyPressed k) ∨ t = .other (.setKeyReleased k) := by
  refine ⟨by decide, rfl, rfl, by decide, fun t h => ?_⟩
  simp only [List.mem_cons, List.not_mem_nil, or_false] at h
  rcases h with h | h | h
  · exact .inl h
  · exact .inr (.inl h)
  · exact .inr (.inr (.inl h))

theorem witness_AgentsKeepToTheirFields :
    (∃ t, step State.reset = .next t ∧ State.reset.turn = none) ∧
    (∃ t, step (turn (.setKeyReleased 0)) = .next t ∧
      (turn (.setKeyReleased 0)).turn = some (.setKeyReleased 0) ∧
      ∀ image, Event.setKeyReleased 0 ≠ .reset image) :=
  ⟨⟨_, rfl, by decide⟩, ⟨_, rfl, by decide, by intro image h; cases h⟩⟩

theorem witness_ReadAfterWrite : 0xFFF ≤ 0xFFF ∧ 0xFFF < 0x1000 := by decide

end Sys2Proof.Tests
end

section
/-! The keypad: what `pressed_key()` returns (spec/10_state.md rule R31). -/

namespace Sys2Proof.Machine

/-- A key's number is kept by the byte that `pressed_key()` returns it in. -/
theorem toNat_ofNat_of_key {j : Nat} (hj : j < 16) : (BitVec.ofNat 8 j).toNat = j :=
  Nat.mod_eq_of_lt (Nat.lt_of_lt_of_le hj (by decide))

/-- The search over the keys finds the lowest pressed one. -/
theorem find?_pressed_eq_some_iff (key : BitVec 16) (j : Nat) :
    (List.range 16).find? (fun i => key.getLsbD i) = some j ↔
      j < 16 ∧ key.getLsbD j = true ∧ ∀ i, i < j → key.getLsbD i = false := by
  simp only [List.find?_range_eq_some, List.mem_range, Bool.not_eq_true', and_left_comm]

theorem pressedKey_eq_some_iff (s : State) (k : Byte) :
    s.pressedKey = some k ↔
      k.toNat < 16 ∧ s.key.getLsbD k.toNat = true ∧ ∀ j, j < k.toNat → s.key.getLsbD j = false := by
  simp only [State.pressedKey, Option.map_eq_some_iff, find?_pressed_eq_some_iff]
  constructor
  · rintro ⟨j, ⟨hj, hpressed, hlowest⟩, rfl⟩
    rw [toNat_ofNat_of_key hj]
    exact ⟨hj, hpressed, hlowest⟩
  · intro hk
    exact ⟨k.toNat, hk, by simp only [BitVec.ofNat_toNat, BitVec.setWidth_eq]⟩

theorem pressedKey_eq_none_iff (s : State) : s.pressedKey = none ↔ ∀ j, j < 16 → s.key.getLsbD j = false := by
  simp only [State.pressedKey, Option.map_eq_none_iff, List.find?_range_eq_none, Bool.not_eq_true']

/-- Settles O40: the search from key 0 upward ends at the lowest pressed key, and NONE lies outside the bytes. -/
theorem pressedKeyIsTheLowest : Obligations.PressedKeyIsTheLowest := by
  intro s
  refine ⟨pressedKey_eq_some_iff s, pressedKey_eq_none_iff s, fun hnone b => ?_⟩
  rw [hnone]
  exact ⟨rfl, rfl⟩

end Sys2Proof.Machine
end

section
/-! Control transfer: SYS, JP, RET, CALL and JP V0 (spec/41_control_transfer.md). -/

namespace Sys2Proof.Machine

/-! ### Operands -/

theorem toNat_zextAddr (nnn : Addr12) : (zextAddr nnn).toNat = nnn.toNat :=
  BitVec.toNat_setWidth_of_le (by decide)

/-- The 16-bit sum never wraps: it is at most 0x10FE (rule R144). -/
theorem toNat_jumpV0Target (v0 : Byte) (nnn : Addr12) : (jumpV0Target v0 nnn).toNat = v0.toNat + nnn.toNat := by
  have hv0 := v0.isLt
  have hnnn := nnn.isLt
  simp only [jumpV0Target, BitVec.toNat_add, BitVec.toNat_setWidth]
  omega

/-! ### Decoding -/

theorem decode_sys {d : DecodeParams} {nnn : Addr12} (hd : d.family0 = .exact) (hcls : nnn ≠ 0x0E0#12)
    (hret : nnn ≠ 0x0EE#12) : decode d (formatA 0x0#4 nnn) = .instr (.sys nnn) := by
  simp [decode, decodeFamily0, hd, cls_word, ret_word, hcls, hret]

theorem decode_ret (d : DecodeParams) : decode d 0x00EE#16 = .instr .ret := by
  obtain ⟨family0, lowNib59⟩ := d
  cases family0 <;> rfl

theorem decode_jp (d : DecodeParams) (nnn : Addr12) : decode d (formatA 0x1#4 nnn) = .instr (.jp nnn) := by
  simp [decode]

theorem decode_call (d : DecodeParams) (nnn : Addr12) : decode d (formatA 0x2#4 nnn) = .instr (.call nnn) := by
  simp [decode]

theorem decode_jpV0 (d : DecodeParams) (nnn : Addr12) : decode d (formatA 0xB#4 nnn) = .instr (.jpV0 nnn) := by
  simp [decode]

/-! ### Frames of the two registers that control transfer writes -/

theorem setPc_unchanged {w : Writes} (hpc : w.pc = true) (s : State) (a : Word) : Unchanged w s (s.setPc a) := by
  simp [Unchanged, hpc]

theorem withStack_unchanged {w : Writes} (hstack : w.stack = true) (s : State) (l : List Word) :
    Unchanged w s { s with stack := l } := by
  simp [Unchanged, hstack, State.v, State.pixel, State.byteAt]

/-- What a write of pc and of the stack leaves unchanged. -/
theorem setPc_withStack_unchanged (s : State) (l : List Word) (a : Word) :
    Unchanged { pc := true, stack := true } s ({ s with stack := l }.setPc a) :=
  (withStack_unchanged rfl s l).trans (setPc_unchanged rfl _ a)

/-- A jump above 0xFFE takes effect, and the next fetch raises with the first address outside memory. -/
theorem fetch_setPc_error (s : State) {a : Word} (ha : 0xFFE < a.toNat) :
    fetch (s.setPc a) = .error (.outOfBoundsAccess (max a.toNat 0x1000)) := by
  have hmax : (if a.toNat = 0xFFF then 0x1000 else a.toNat) = max a.toNat 0x1000 := by split <;> omega
  rw [fetch_error (by rw [setPc_pc]; omega), setPc_pc, hmax]

/-! ### The stack's depth -/

theorem stackFull_eq_false_iff (s : State) :
    s.stackFull = false ↔ s.params.stackDepth = none ∨ ∃ n, s.params.stackDepth = some n ∧ s.stack.length < n := by
  cases hdepth : s.params.stackDepth <;> simp [State.stackFull, hdepth]

theorem stackFull_eq_true {s : State} {n : Nat} (hdepth : s.params.stackDepth = some n) (hn : n ≤ s.stack.length) :
    s.stackFull = true := by
  simp [State.stackFull, hdepth, hn]

/-! ### The execute phase -/

theorem exec_sys (nnn : Addr12) (s : State) : exec (.sys nnn) s = .next (s.setPc (zextAddr nnn)) := rfl

theorem exec_jp (nnn : Addr12) (s : State) : exec (.jp nnn) s = .next (s.setPc (zextAddr nnn)) := rfl

theorem exec_jpV0 (nnn : Addr12) (s : State) :
    exec (.jpV0 nnn) s = .next (s.setPc (jumpV0Target (s.v 0x0#4) nnn)) := rfl

theorem exec_ret_cons {s : State} {a : Word} {rest : List Word} (h : s.stack = a :: rest) :
    exec .ret s = .next ({ s with stack := rest }.setPc a) := by
  simp [exec, execRet, popInto_cons h]

theorem exec_ret_nil {s : State} (h : s.stack = []) : exec .ret s = .next (takeError .stackUnderflow s) := by
  simp [exec, execRet, popInto_nil h]

theorem exec_call_done {s : State} (h : s.stackFull = false) (nnn : Addr12) :
    exec (.call nnn) s = .next ({ s with stack := s.pc :: s.stack }.setPc (zextAddr nnn)) := by
  simp [exec, execCall, push_done h]

theorem exec_call_overflow {s : State} (h : s.stackFull = true) (nnn : Addr12) :
    exec (.call nnn) s = .next (takeError .stackOverflow s) := by
  simp [exec, execCall, push_raised h]

/-- What SYS and JP have in common: the jump to NNN. -/
theorem setPc_zextAddr_spec (nnn : Addr12) (s : State) :
    (s.setPc (zextAddr nnn)).pc.toNat = nnn.toNat ∧ Unchanged { pc := true } s (s.setPc (zextAddr nnn)) ∧
      (nnn = 0xFFF#12 → fetch (s.setPc (zextAddr nnn)) = .error (.outOfBoundsAccess 0x1000)) := by
  refine ⟨toNat_zextAddr nnn, setPc_unchanged rfl s _, ?_⟩
  rintro rfl
  exact fetch_setPc_error s (by decide)

/-! ### The obligations -/

/-- Settles O13: both instructions are the same write of pc, and 0xFFF is above the last pc that can be fetched from. -/
theorem sysAndJpJumpToNNN : Obligations.SysAndJpJumpToNNN := by
  intro d nnn s
  exact ⟨decode_sys, decode_jp d nnn, ⟨_, exec_sys nnn s, setPc_zextAddr_spec nnn s⟩,
    ⟨_, exec_jp nnn s, setPc_zextAddr_spec nnn s⟩⟩

/-- Settles O14, by cases on whether the stack holds an entry. -/
theorem retPopsTheStack : Obligations.RetPopsTheStack := by
  intro d s
  refine ⟨decode_ret d, fun a rest hs => ?_, fun hs => ?_⟩
  · exact ⟨_, exec_ret_cons hs, rfl, rfl, setPc_withStack_unchanged s rest a, fetch_setPc_error _⟩
  · exact ⟨_, exec_ret_nil hs, takeError_tookError _ s⟩

/-- Settles O15, by cases on whether the stack is full. -/
theorem callPushesThePc : Obligations.CallPushesThePc := by
  intro d nnn s
  refine ⟨decode_call d nnn, fun hroom => ?_, fun n hdepth hn => ?_⟩
  · have hfull : s.stackFull = false := (stackFull_eq_false_iff s).2 hroom
    exact ⟨_, exec_call_done hfull nnn, rfl, toNat_zextAddr nnn, setPc_withStack_unchanged s _ _⟩
  · exact ⟨_, exec_call_overflow (stackFull_eq_true hdepth hn) nnn, takeError_tookError _ s⟩

/-- Settles O17: the target is the exact sum, so whether the next fetch raises is read off that sum. -/
theorem jpV0AddsExactly : Obligations.JpV0AddsExactly := by
  intro d nnn s
  have htarget : (jumpV0Target (s.v 0x0#4) nnn).toNat = (s.v 0x0#4).toNat + nnn.toNat := toNat_jumpV0Target _ nnn
  refine ⟨decode_jpV0 d nnn, _, exec_jpV0 nnn s, htarget, setPc_unchanged rfl s _, ?_⟩
  rw [← htarget]
  exact fetch_setPc_error s

end Sys2Proof.Machine
end

section
/-! Skips on a byte and on a register: SE and SNE (spec/42_skips.md). -/

namespace Sys2Proof.Machine

/-! ### Decoding -/

theorem decode_seImm (d : DecodeParams) (x : RegIx) (nn : Byte) :
    decode d (formatRB 0x3#4 x nn) = .instr (.seImm x nn) := by
  simp [decode]

theorem decode_sneImm (d : DecodeParams) (x : RegIx) (nn : Byte) :
    decode d (formatRB 0x4#4 x nn) = .instr (.sneImm x nn) := by
  simp [decode]

/-- In families 5 and 9 the low nibble and LOWNIB_59 decide what the word decodes to (rule R98). -/
theorem decode_family5 (d : DecodeParams) (x y : RegIx) (n : Nibble) :
    decode d (formatRR 0x5#4 x y n) = decodeLowNib d n (.seReg x y n) := by
  simp [decode]

theorem decode_family9 (d : DecodeParams) (x y : RegIx) (n : Nibble) :
    decode d (formatRR 0x9#4 x y n) = decodeLowNib d n (.sneReg x y n) := by
  simp [decode]

theorem decodeLowNib_instr {d : DecodeParams} {n : Nibble} (h : n = 0#4 ∨ d.lowNib59 = .ignore) (i : Instr) :
    decodeLowNib d n i = .instr i := by
  obtain rfl | hd := h
  · cases hd : d.lowNib59 <;> simp [decodeLowNib, hd]
  · simp [decodeLowNib, hd]

theorem decodeLowNib_unimplemented {d : DecodeParams} {n : Nibble} (hn : n ≠ 0#4) (hd : d.lowNib59 = .fault) (i : Instr) :
    decodeLowNib d n i = .unimplemented := by
  simp [decodeLowNib, hd, hn]

/-! ### What a skip does -/

theorem skipIf_unchanged {w : Writes} (hpc : w.pc = true) (s : State) (c : Bool) : Unchanged w s (s.skipIf c) := by
  cases c with
  | false => exact Unchanged.refl w s
  | true => exact setPc_unchanged hpc s _

/-- A skip on equality, as SE makes it. -/
theorem skipIf_beq_spec (s : State) (a b : Byte) :
    (s.skipIf (a == b)).pc = (if a = b then s.pc + 2#16 else s.pc) ∧
      Unchanged { pc := true } s (s.skipIf (a == b)) :=
  ⟨by simp only [skipIf_pc, beq_iff_eq], skipIf_unchanged rfl s _⟩

/-- A skip on inequality, as SNE makes it: the complement of SE's. -/
theorem skipIf_bne_spec (s : State) (a b : Byte) :
    (s.skipIf (a != b)).pc = (if a = b then s.pc else s.pc + 2#16) ∧
      Unchanged { pc := true } s (s.skipIf (a != b)) :=
  ⟨by simp only [skipIf_pc, bne_iff_ne, ne_eq, ite_not], skipIf_unchanged rfl s _⟩

/-! ### The execute phase -/

theorem exec_seImm (x : RegIx) (nn : Byte) (s : State) :
    exec (.seImm x nn) s = .next (s.skipIf (s.v x == nn)) := rfl

theorem exec_sneImm (x : RegIx) (nn : Byte) (s : State) :
    exec (.sneImm x nn) s = .next (s.skipIf (s.v x != nn)) := rfl

theorem exec_seReg (x y : RegIx) (n : Nibble) (s : State) :
    exec (.seReg x y n) s = .next (s.skipIf (s.v x == s.v y)) := rfl

theorem exec_sneReg (x y : RegIx) (n : Nibble) (s : State) :
    exec (.sneReg x y n) s = .next (s.skipIf (s.v x != s.v y)) := rfl

/-! ### The obligations -/

/-- Settles O18: both instructions are a conditional skip, on V[X] = NN and on its complement. -/
theorem skipsOnAByte : Obligations.SkipsOnAByte := by
  intro d x nn s
  exact ⟨decode_seImm d x nn, decode_sneImm d x nn,
    ⟨_, exec_seImm x nn s, skipIf_beq_spec s _ _⟩, ⟨_, exec_sneImm x nn s, skipIf_bne_spec s _ _⟩⟩

/-- Settles O19: the low nibble matters to the decoder only, and the execute phase is the skip of O18 with V[Y] for the
byte. -/
theorem skipsOnARegister : Obligations.SkipsOnARegister := by
  intro d x y n s
  refine ⟨fun hn => ?_, fun hn hd => ?_, ⟨_, exec_seReg x y n s, skipIf_beq_spec s _ _⟩,
    ⟨_, exec_sneReg x y n s, skipIf_bne_spec s _ _⟩⟩
  · exact ⟨(decode_family5 d x y n).trans (decodeLowNib_instr hn _),
      (decode_family9 d x y n).trans (decodeLowNib_instr hn _)⟩
  · exact ⟨(decode_family5 d x y n).trans (decodeLowNib_unimplemented hn hd _),
      (decode_family9 d x y n).trans (decodeLowNib_unimplemented hn hd _)⟩

end Sys2Proof.Machine
end

section
/-! Register loads and arithmetic: 6XNN, 7XNN and family 8 (spec/43_register_alu.md). -/

namespace Sys2Proof.Machine

/-! ### Decoding -/

theorem decode_ldImm (d : DecodeParams) (x : RegIx) (nn : Byte) :
    decode d (formatRB 0x6#4 x nn) = .instr (.ldImm x nn) := by
  simp [decode]

theorem decode_addImm (d : DecodeParams) (x : RegIx) (nn : Byte) :
    decode d (formatRB 0x7#4 x nn) = .instr (.addImm x nn) := by
  simp [decode]

/-- In family 8 the low nibble alone picks the operation, under every value of the decoding parameters. -/
theorem decode_family8 (d : DecodeParams) (x y : RegIx) (n : Nibble) :
    decode d (formatRR 0x8#4 x y n) = decodeFamily8 x y n := by
  simp [decode]

/-! ### What the writes of registers do -/

theorem setV_unchanged {w : Writes} {r : RegIx} (hr : r ∈ w.regs) (s : State) (b : Byte) :
    Unchanged w s (s.setV r b) := by
  have hreg : ∀ q, q ∉ w.regs → (s.setV r b).v q = s.v q := fun q hq => by
    rw [setV_v, if_neg (ne_of_mem_of_not_mem hr hq).symm]
  simp only [Unchanged, setV_i, setV_pc, setV_stack, setV_dt, setV_st, setV_pixel, setV_dirty, setV_key, setV_byteAt,
    setV_status, setV_draws, setV_params, setV_agenda, implies_true, and_true]
  exact hreg

/-- An instruction that writes V[X] alone; for X other than F it keeps VF. -/
theorem setV_spec (s : State) (x : RegIx) (b : Byte) :
    (s.setV x b).v x = b ∧ Unchanged { regs := [x] } s (s.setV x b) :=
  ⟨by rw [setV_v, if_pos rfl], setV_unchanged (by simp) s b⟩

/-- The flag written last, as 8XY4 does: it stands with X = F. -/
theorem setV_then_flag_spec (s : State) (x : RegIx) (b flag : Byte) :
    ((s.setV x b).setV vf flag).v vf = flag ∧ (x ≠ vf → ((s.setV x b).setV vf flag).v x = b) ∧
      Unchanged { regs := [x, vf] } s ((s.setV x b).setV vf flag) := by
  refine ⟨by rw [setV_v, if_pos rfl], fun hx => ?_, ?_⟩
  · rw [setV_v, if_neg hx, setV_v, if_pos rfl]
  · exact (setV_unchanged (by simp) s b).trans (setV_unchanged (by simp) _ flag)

/-- The flag written first, as subtractions and shifts do: with X = F the result stands. -/
theorem flag_then_setV_spec (s : State) (x : RegIx) (b flag : Byte) :
    ((s.setV vf flag).setV x b).v x = b ∧ (x ≠ vf → ((s.setV vf flag).setV x b).v vf = flag) ∧
      Unchanged { regs := [x, vf] } s ((s.setV vf flag).setV x b) := by
  refine ⟨by rw [setV_v, if_pos rfl], fun hx => ?_, ?_⟩
  · rw [setV_v, if_neg hx.symm, setV_v, if_pos rfl]
  · exact (setV_unchanged (by simp) s flag).trans (setV_unchanged (by simp) _ b)

/-! ### The flags and the results as numbers -/

theorem carryFlag_eq (a b : Byte) : carryFlag a b = if a.toNat + b.toNat > 0xFF then 0x01#8 else 0x00#8 := by
  simp only [carryFlag, flagByte, decide_eq_true_eq]

theorem notBorrowFlag_eq (a b : Byte) : notBorrowFlag a b = if a.toNat < b.toNat then 0x00#8 else 0x01#8 := by
  simp only [notBorrowFlag, flagByte, Bool.not_eq_true', decide_eq_false_iff_not, ite_not]

theorem toNat_flagByte (b : Bool) : (flagByte b).toNat = b.toNat := by
  cases b <;> rfl

theorem toNat_lowBitFlag (a : Byte) : (lowBitFlag a).toNat = a.toNat % 2 := by
  rw [lowBitFlag, toNat_flagByte, BitVec.getLsbD, Nat.toNat_testBit, Nat.pow_zero, Nat.div_one]

theorem toNat_highBitFlag (a : Byte) : (highBitFlag a).toNat = a.toNat / 128 := by
  have ha := a.isLt
  rw [highBitFlag, toNat_flagByte, BitVec.getLsbD, Nat.toNat_testBit]
  omega

theorem toNat_byte_sub (a b : Byte) : (a - b).toNat = (256 + a.toNat - b.toNat) % 256 := by
  have hb := b.isLt
  rw [BitVec.toNat_sub]
  omega

theorem toNat_byte_shiftRight_one (a : Byte) : (a >>> 1).toNat = a.toNat / 2 := by
  rw [BitVec.toNat_ushiftRight, Nat.shiftRight_eq_div_pow, Nat.pow_one]

theorem toNat_byte_shiftLeft_one (a : Byte) : (a <<< 1).toNat = a.toNat * 2 % 256 := by
  rw [BitVec.toNat_shiftLeft, Nat.shiftLeft_eq, Nat.pow_one]

/-! ### The execute phase -/

theorem exec_ldImm (x : RegIx) (nn : Byte) (s : State) : exec (.ldImm x nn) s = .next (s.setV x nn) := rfl

theorem exec_addImm (x : RegIx) (nn : Byte) (s : State) : exec (.addImm x nn) s = .next (s.setV x (s.v x + nn)) := rfl

theorem exec_ldReg (x y : RegIx) (s : State) : exec (.ldReg x y) s = .next (s.setV x (s.v y)) := rfl

theorem exec_orReg (x y : RegIx) (s : State) : exec (.orReg x y) s = .next (s.setV x (s.v x ||| s.v y)) := rfl

theorem exec_andReg (x y : RegIx) (s : State) : exec (.andReg x y) s = .next (s.setV x (s.v x &&& s.v y)) := rfl

theorem exec_xorReg (x y : RegIx) (s : State) : exec (.xorReg x y) s = .next (s.setV x (s.v x ^^^ s.v y)) := rfl

theorem exec_addReg (x y : RegIx) (s : State) :
    exec (.addReg x y) s = .next ((s.setV x (s.v x + s.v y)).setV vf (carryFlag (s.v x) (s.v y))) := rfl

theorem exec_sub (x y : RegIx) (s : State) :
    exec (.sub x y) s = .next ((s.setV vf (notBorrowFlag (s.v x) (s.v y))).setV x (s.v x - s.v y)) := rfl

theorem exec_shr (x y : RegIx) (s : State) :
    exec (.shr x y) s = .next ((s.setV vf (lowBitFlag (s.v x))).setV x (s.v x >>> 1)) := rfl

theorem exec_subn (x y : RegIx) (s : State) :
    exec (.subn x y) s = .next ((s.setV vf (notBorrowFlag (s.v y) (s.v x))).setV x (s.v y - s.v x)) := rfl

theorem exec_shl (x y : RegIx) (s : State) :
    exec (.shl x y) s = .next ((s.setV vf (highBitFlag (s.v x))).setV x (s.v x <<< 1)) := rfl

/-! ### The obligations -/

/-- Settles O20: both loads are one write of V[X]. -/
theorem loadsOfARegister : Obligations.LoadsOfARegister := by
  intro d x y nn s
  exact ⟨decode_ldImm d x nn, decode_family8 d x y 0x0#4, ⟨_, exec_ldImm x nn s, setV_spec s x _⟩,
    ⟨_, exec_ldReg x y s, setV_spec s x _⟩⟩

/-- Settles O21: one write of V[X], so VF is kept unless X is F. -/
theorem addImmWrapsWithoutFlag : Obligations.AddImmWrapsWithoutFlag := by
  intro d x nn s
  obtain ⟨hsum, hframe⟩ := setV_spec s x (s.v x + nn)
  refine ⟨decode_addImm d x nn, _, exec_addImm x nn s, ?_, hframe⟩
  rw [hsum, BitVec.toNat_add]

/-- Settles O22: each operation is one write of V[X], and its bits are those of the bitwise operation. -/
theorem logicBitByBit : Obligations.LogicBitByBit := by
  intro d x y s
  refine ⟨decode_family8 d x y 0x1#4, decode_family8 d x y 0x2#4, decode_family8 d x y 0x3#4,
    ⟨_, exec_orReg x y s, fun k => ?_, (setV_spec s x _).2⟩,
    ⟨_, exec_andReg x y s, fun k => ?_, (setV_spec s x _).2⟩,
    ⟨_, exec_xorReg x y s, fun k => ?_, (setV_spec s x _).2⟩⟩
  · rw [(setV_spec s x _).1, BitVec.getLsbD_or]
  · rw [(setV_spec s x _).1, BitVec.getLsbD_and]
  · rw [(setV_spec s x _).1, BitVec.getLsbD_xor]

/-- Settles O23: the carry is written last. -/
theorem addRegSumAndCarry : Obligations.AddRegSumAndCarry := by
  intro d x y s
  obtain ⟨hcarry, hsum, hframe⟩ := setV_then_flag_spec s x (s.v x + s.v y) (carryFlag (s.v x) (s.v y))
  refine ⟨decode_family8 d x y 0x4#4, _, exec_addReg x y s, ?_, fun hx => ?_, hframe⟩
  · rw [hcarry, carryFlag_eq]
  · rw [hsum hx, BitVec.toNat_add]

/-- Settles O24: the difference is written last. -/
theorem subDifferenceAndNotBorrow : Obligations.SubDifferenceAndNotBorrow := by
  intro d x y s
  obtain ⟨hdiff, hflag, hframe⟩ := flag_then_setV_spec s x (s.v x - s.v y) (notBorrowFlag (s.v x) (s.v y))
  refine ⟨decode_family8 d x y 0x5#4, _, exec_sub x y s, ?_, fun hx => ?_, hframe⟩
  · rw [hdiff, toNat_byte_sub]
  · rw [hflag hx, notBorrowFlag_eq]

/-- Settles O25: the half is written last, and Y is no operand of the execute phase. -/
theorem shrHalvesAndKeepsTheLowBit : Obligations.ShrHalvesAndKeepsTheLowBit := by
  intro d x y s
  obtain ⟨hhalf, hflag, hframe⟩ := flag_then_setV_spec s x (s.v x >>> 1) (lowBitFlag (s.v x))
  refine ⟨decode_family8 d x y 0x6#4, _, exec_shr x y s, ?_, fun hx => ?_, hframe⟩
  · rw [hhalf, toNat_byte_shiftRight_one]
  · rw [hflag hx, toNat_lowBitFlag]

/-- Settles O26: SUB with its operands exchanged, the difference written last. -/
theorem subnDifferenceAndNotBorrow : Obligations.SubnDifferenceAndNotBorrow := by
  intro d x y s
  obtain ⟨hdiff, hflag, hframe⟩ := flag_then_setV_spec s x (s.v y - s.v x) (notBorrowFlag (s.v y) (s.v x))
  refine ⟨decode_family8 d x y 0x7#4, _, exec_subn x y s, ?_, fun hx => ?_, hframe⟩
  · rw [hdiff, toNat_byte_sub]
  · rw [hflag hx, notBorrowFlag_eq]

/-- Settles O27: the double is written last, and Y is no operand of the execute phase. -/
theorem shlDoublesAndKeepsTheHighBit : Obligations.ShlDoublesAndKeepsTheHighBit := by
  intro d x y s
  obtain ⟨hdouble, hflag, hframe⟩ := flag_then_setV_spec s x (s.v x <<< 1) (highBitFlag (s.v x))
  refine ⟨decode_family8 d x y 0xE#4, _, exec_shl x y s, ?_, fun hx => ?_, hframe⟩
  · rw [hdouble, toNat_byte_shiftLeft_one]
  · rw [hflag hx, toNat_highBitFlag]

end Sys2Proof.Machine
end

section
/-! The index register: LD I and LD F (spec/44_index_memory.md). -/

namespace Sys2Proof.Machine

/-! ### Operands -/

/-- Rule R6 keeps the font table below 0x200, and it holds at least one glyph of five bytes. -/
theorem fontBase_le_of_wf {p : Params} (hwf : p.wf = true) : p.fontBase ≤ 0x1FB := by
  simp only [Params.wf, progBase, Bool.and_eq_true, decide_eq_true_eq] at hwf
  obtain ⟨⟨⟨hone, -⟩, -⟩, hbelow⟩ := hwf
  omega

/-- The exact address of a glyph, in or past the font table (rule R222). -/
theorem fontBase_add_glyphOffset_le {p : Params} (hwf : p.wf = true) (vx : Byte) :
    p.fontBase + vx.toNat * 5 ≤ 0x6F6 := by
  have hbase := fontBase_le_of_wf hwf
  have hvx := vx.isLt
  omega

theorem toNat_glyphAddr {p : Params} (hwf : p.wf = true) (vx : Byte) :
    (glyphAddr p vx).toNat = p.fontBase + vx.toNat * 5 :=
  Nat.mod_eq_of_lt (Nat.lt_of_le_of_lt (fontBase_add_glyphOffset_le hwf vx) (by decide))

/-! ### Decoding -/

theorem decode_ldI (d : DecodeParams) (nnn : Addr12) : decode d (formatA 0xA#4 nnn) = .instr (.ldI nnn) := by
  simp [decode]

/-- In family F the low byte alone picks the instruction, under every value of the decoding parameters. -/
theorem decode_familyF (d : DecodeParams) (x : RegIx) (nn : Byte) :
    decode d (formatRB 0xF#4 x nn) = decodeFamilyF x nn := by
  simp [decode]

/-! ### The execute phase -/

theorem setI_unchanged {w : Writes} (hi : w.i = true) (s : State) (a : Word) : Unchanged w s (s.setI a) := by
  simp [Unchanged, hi]

theorem exec_ldI (nnn : Addr12) (s : State) : exec (.ldI nnn) s = .next (s.setI (zextAddr nnn)) := rfl

theorem exec_ldF (x : RegIx) (s : State) : exec (.ldF x) s = .next (s.setI (glyphAddr s.params (s.v x))) := rfl

/-! ### The obligations -/

/-- Settles O29: one write of I with the zero-extended address. -/
theorem ldILoadsTheAddress : Obligations.LdILoadsTheAddress := by
  intro d nnn s
  exact ⟨decode_ldI d nnn, _, exec_ldI nnn s, toNat_zextAddr nnn, setI_unchanged rfl s _⟩

/-- Settles O31: one write of I with the glyph's address, which the range of FONT_BASE keeps from wrapping for every
V[X]. -/
theorem ldFPointsAtTheGlyph : Obligations.LdFPointsAtTheGlyph := by
  intro d x s
  refine ⟨decode_familyF d x 0x29#8, fun hwf => ?_⟩
  have haddr : (glyphAddr s.params (s.v x)).toNat = s.params.fontBase + (s.v x).toNat * 5 := toNat_glyphAddr hwf _
  have hbound : (glyphAddr s.params (s.v x)).toNat ≤ 0x6F6 := haddr ▸ fontBase_add_glyphOffset_le hwf _
  exact ⟨_, exec_ldF x s, haddr, hbound, setI_unchanged rfl s _⟩

end Sys2Proof.Machine
end

section
/-! The display: CLS (spec/45_display.md). -/

namespace Sys2Proof.Machine

/-! ### Decoding -/

/-- Both readings of family 0 take this word as CLS (rule R97). -/
theorem decode_cls (d : DecodeParams) : decode d 0x00E0#16 = .instr .cls := by
  obtain ⟨family0, lowNib59⟩ := d
  cases family0 <;> rfl

/-! ### Frames of the framebuffer and of DIRTY -/

theorem clearPixels_unchanged {w : Writes} (hpixels : w.pixels = true) (s : State) : Unchanged w s s.clearPixels := by
  simp [Unchanged, hpixels]

theorem setDirty_unchanged {w : Writes} (hdirty : w.dirty = true) (s : State) (b : Bool) :
    Unchanged w s (s.setDirty b) := by
  simp [Unchanged, hdirty]

/-! ### The execute phase -/

theorem exec_cls (s : State) : exec .cls s = .next (s.clearPixels.setDirty true) := rfl

/-! ### The obligations -/

/-- Settles O36: the framebuffer is cleared, then DIRTY is set, whatever both held before. -/
theorem clsClearsEveryPixel : Obligations.ClsClearsEveryPixel := by
  intro d s
  have hpixels (x y : Nat) : (s.clearPixels.setDirty true).pixel x y = false := by
    rw [setDirty_pixel, clearPixels_pixel]
  have hframe : Unchanged { pixels := true, dirty := true } s (s.clearPixels.setDirty true) :=
    (clearPixels_unchanged rfl s).trans (setDirty_unchanged rfl _ true)
  exact ⟨decode_cls d, _, exec_cls s, hpixels, setDirty_dirty _ true, hframe⟩

end Sys2Proof.Machine
end

section
/-! Waiting for a key and the timer loads: LD Vx, K and LD from and to DT and ST (spec/46_timers_keypad.md). -/

namespace Sys2Proof.Machine

/-! ### Frames of the timers -/

theorem setDt_unchanged {w : Writes} (hdt : w.dt = true) (s : State) (b : Byte) : Unchanged w s (s.setDt b) := by
  simp [Unchanged, hdt]

theorem setSt_unchanged {w : Writes} (hst : w.st = true) (s : State) (b : Byte) : Unchanged w s (s.setSt b) := by
  simp [Unchanged, hst]

/-! ### The execute phase -/

theorem exec_ldVxK_none {s : State} (h : s.pressedKey = none) (x : RegIx) :
    exec (.ldVxK x) s = .next (s.setPc (s.pc - 2#16)) := by
  simp only [exec, execLdVxK, h]

theorem exec_ldVxK_some {s : State} {k : Byte} (h : s.pressedKey = some k) (x : RegIx) :
    exec (.ldVxK x) s = .next (s.setV x k) := by
  simp only [exec, execLdVxK, h]

theorem exec_ldVxDt (x : RegIx) (s : State) : exec (.ldVxDt x) s = .next (s.setV x s.dt) := rfl

theorem exec_ldDtVx (x : RegIx) (s : State) : exec (.ldDtVx x) s = .next (s.setDt (s.v x)) := rfl

theorem exec_ldStVx (x : RegIx) (s : State) : exec (.ldStVx x) s = .next (s.setSt (s.v x)) := rfl

/-! ### The obligations -/

/-- Settles O42, by cases on what `pressed_key()` returns: NONE is no pressed key at all, a byte is the lowest one. -/
theorem ldVxKWaitsForAKey : Obligations.LdVxKWaitsForAKey := by
  intro d x s
  refine ⟨decode_familyF d x 0x0A#8, fun hnone => ?_, fun k hk hpressed hlowest => ?_⟩
  · have hkey : s.pressedKey = none := (pressedKey_eq_none_iff s).2 hnone
    exact ⟨_, exec_ldVxK_none hkey x, setPc_pc s _, setPc_unchanged rfl s _⟩
  · have hnat : (BitVec.ofNat 8 k).toNat = k := toNat_ofNat_of_key hk
    have hkey : s.pressedKey = some (BitVec.ofNat 8 k) := by
      rw [pressedKey_eq_some_iff, hnat]
      exact ⟨hk, hpressed, hlowest⟩
    obtain ⟨hread, hframe⟩ := setV_spec s x (BitVec.ofNat 8 k)
    exact ⟨_, exec_ldVxK_some hkey x, by rw [hread, hnat], hframe⟩

/-- Settles O43: each load is one write, of V[X] with DT, of DT with V[X] and of ST with V[X]. -/
theorem timerLoads : Obligations.TimerLoads := by
  intro d x s
  exact ⟨decode_familyF d x 0x07#8, decode_familyF d x 0x15#8, decode_familyF d x 0x18#8,
    ⟨_, exec_ldVxDt x s, setV_spec s x _⟩,
    ⟨_, exec_ldDtVx x s, setDt_dt s _, setDt_unchanged rfl s _⟩,
    ⟨_, exec_ldStVx x s, setSt_st s _, setSt_unchanged rfl s _⟩⟩

end Sys2Proof.Machine
end

section
/-! The host's calls: the keypad and framebuffer ports (spec/60_exceptions.md). -/

namespace Sys2Proof.Machine

/-! ### The bits of KEY after a press and after a release -/

theorem pressKey_getLsbD {k : Nat} (hk : k < 16) (s : State) (j : Nat) :
    (s.pressKey k).key.getLsbD j = if j = k then true else s.key.getLsbD j := by
  rw [pressKey_key, BitVec.getLsbD_or, BitVec.getLsbD_twoPow, decide_eq_true hk, Bool.true_and]
  split
  next hj => rw [decide_eq_true hj.symm, Bool.or_true]
  next hj => rw [decide_eq_false (Ne.symm hj), Bool.or_false]

theorem releaseKey_getLsbD {k : Nat} (hk : k < 16) (s : State) (j : Nat) :
    (s.releaseKey k).key.getLsbD j = if j = k then false else s.key.getLsbD j := by
  rw [releaseKey_key, BitVec.getLsbD_and, BitVec.getLsbD_not, BitVec.getLsbD_twoPow, decide_eq_true hk, Bool.true_and]
  split
  next hj => rw [decide_eq_true hj.symm, Bool.not_true, Bool.and_false, Bool.and_false]
  next hj =>
    rw [decide_eq_false (Ne.symm hj), Bool.not_false, Bool.and_true, Bool.and_eq_left_iff_imp]
    exact fun hset => decide_eq_true (BitVec.lt_of_getLsbD hset)

/-! ### Frames of KEY -/

theorem pressKey_unchanged {w : Writes} (hkey : w.key = true) (s : State) (k : Nat) :
    Unchanged w s (s.pressKey k) := by
  simp [Unchanged, hkey]

theorem releaseKey_unchanged {w : Writes} (hkey : w.key = true) (s : State) (k : Nat) :
    Unchanged w s (s.releaseKey k) := by
  simp [Unchanged, hkey]

/-! ### The calls -/

theorem perform_setKeyPressed {k : Nat} (hk : k < 16) (s : State) :
    perform (.setKeyPressed k) s = .next (.ok, s.pressKey k) := by
  simp only [perform, setKeyPressed, if_pos hk]

theorem perform_setKeyReleased {k : Nat} (hk : k < 16) (s : State) :
    perform (.setKeyReleased k) s = .next (.ok, s.releaseKey k) := by
  simp only [perform, setKeyReleased, if_pos hk]

/-- Outside UNRESET a call answers (rule R335). -/
theorem afterReset_next {s : State} (hs : s.status ≠ .unreset) (answer : Reply × State) :
    afterReset s answer = .next answer := by
  unfold afterReset
  split
  next hunreset => exact absurd hunreset hs
  next => rfl
  next => rfl

theorem readPixel_in_range {x y : Nat} (hx : x < 64) (hy : y < 32) (s : State) :
    readPixel x y s = (.pixel (s.pixel x y), s) := by
  rw [readPixel, if_neg (Nat.not_le.2 hx), if_neg (Nat.not_le.2 hy)]

theorem perform_readPixel {s : State} (hs : s.status ≠ .unreset) (x y : Nat) :
    perform (.readPixel x y) s = .next (readPixel x y s) :=
  afterReset_next hs _

theorem perform_takeDirtyFlag {s : State} (hs : s.status ≠ .unreset) :
    perform .takeDirtyFlag s = .next (.dirtyFlag s.dirty, s.setDirty false) :=
  afterReset_next hs _

/-! ### The obligations -/

/-- Settles O45: a press and a release each write the one bit k of KEY, and neither reads the status. -/
theorem keyPortsSetAndClear : Obligations.KeyPortsSetAndClear := by
  intro s k hk
  refine ⟨⟨_, perform_setKeyPressed hk s, ?_, fun j hj => ?_, pressKey_unchanged rfl s k⟩,
    ⟨_, perform_setKeyReleased hk s, ?_, fun j hj => ?_, releaseKey_unchanged rfl s k⟩⟩
  · rw [pressKey_getLsbD hk, if_pos rfl]
  · rw [pressKey_getLsbD hk, if_neg hj]
  · rw [releaseKey_getLsbD hk, if_pos rfl]
  · rw [releaseKey_getLsbD hk, if_neg hj]

/-- Settles O47: a read leaves the state alone, and a poll clears DIRTY and keeps the status, so a second poll is
answered too, with the cleared flag. -/
theorem framebufferPorts : Obligations.FramebufferPorts := by
  intro s hs
  refine ⟨fun x y hx hy => ?_, s.setDirty false, perform_takeDirtyFlag hs, setDirty_dirty s false,
    setDirty_unchanged rfl s false, ?_⟩
  · rw [perform_readPixel hs, readPixel_in_range hx hy]
  · have hsecond : (s.setDirty false).status ≠ .unreset := by rwa [setDirty_status]
    exact perform_takeDirtyFlag hsecond

end Sys2Proof.Machine
end

section
/-! Decoding and encoding: every layout read back, and every word laid out again (spec/30_encoding.md). -/

namespace Sys2Proof.Machine

/-! ### The families that no lemma above reads -/

theorem decode_family0 (d : DecodeParams) (nnn : Addr12) :
    decode d (formatA 0x0#4 nnn) = .instr (decodeFamily0 d (formatA 0x0#4 nnn)) := by
  simp [decode]

theorem decode_rnd (d : DecodeParams) (x : RegIx) (nn : Byte) :
    decode d (formatRB 0xC#4 x nn) = .instr (.rnd x nn) := by
  simp [decode]

theorem decode_drw (d : DecodeParams) (x y : RegIx) (n : Nibble) :
    decode d (formatRR 0xD#4 x y n) = .instr (.drw x y n) := by
  simp [decode]

/-- In family E the low byte alone picks the instruction, under every value of the decoding parameters. -/
theorem decode_familyE (d : DecodeParams) (x : RegIx) (nn : Byte) :
    decode d (formatRB 0xE#4 x nn) = decodeFamilyE x nn := by
  simp [decode]

/-! ### Family 0 (rule R97) -/

/-- Under EXACT the whole address tells CLS and RET from SYS. -/
theorem decodeFamily0_exact (low : LowNib59) (nnn : Addr12) :
    decodeFamily0 ⟨.exact, low⟩ (formatA 0x0#4 nnn)
      = if nnn = 0x0E0#12 then .cls else if nnn = 0x0EE#12 then .ret else .sys nnn := by
  simp [decodeFamily0, cls_word, ret_word]

/-- Under LOW_BYTE the low byte of the address does. -/
theorem decodeFamily0_lowByte (low : LowNib59) (nnn : Addr12) :
    decodeFamily0 ⟨.lowByte, low⟩ (formatA 0x0#4 nnn)
      = if nnn.extractLsb' 0 8 = 0xE0#8 then .cls
        else if nnn.extractLsb' 0 8 = 0xEE#8 then .ret else .sys nnn := by
  simp [decodeFamily0]

/-- The low byte of an address as a number. -/
theorem extractLsb'_eq_iff_toNat_mod (nnn : Addr12) (b : Byte) :
    nnn.extractLsb' 0 8 = b ↔ nnn.toNat % 256 = b.toNat := by
  rw [← BitVec.toNat_inj, BitVec.extractLsb'_toNat, Nat.shiftRight_zero]

/-- A well-formed SYS is no other reading of family 0. -/
theorem decode_sys_of_wf {d : DecodeParams} {nnn : Addr12} (h : sysWellFormed d nnn = true) :
    decode d (formatA 0x0#4 nnn) = .instr (.sys nnn) := by
  obtain ⟨family0, low⟩ := d
  rw [decode_family0]
  cases family0 with
  | exact =>
    simp only [sysWellFormed, Bool.and_eq_true, bne_iff_ne, ne_eq] at h
    rw [decodeFamily0_exact, if_neg h.1, if_neg h.2]
  | lowByte =>
    simp only [sysWellFormed, Bool.and_eq_true, bne_iff_ne, ne_eq] at h
    rw [decodeFamily0_lowByte, if_neg h.1, if_neg h.2]

/-- What family 0 decodes to under EXACT keeps the whole word. -/
theorem encode_decodeFamily0_exact (low : LowNib59) (nnn : Addr12) :
    encode (decodeFamily0 ⟨.exact, low⟩ (formatA 0x0#4 nnn)) = formatA 0x0#4 nnn ∧
      (decodeFamily0 ⟨.exact, low⟩ (formatA 0x0#4 nnn)).wf ⟨.exact, low⟩ = true := by
  by_cases hcls : nnn = 0x0E0#12
  · subst hcls; exact ⟨rfl, rfl⟩
  · by_cases hret : nnn = 0x0EE#12
    · subst hret; exact ⟨rfl, rfl⟩
    · have hwf : sysWellFormed ⟨.exact, low⟩ nnn = true := by
        simp only [sysWellFormed, Bool.and_eq_true, bne_iff_ne]
        exact ⟨hcls, hret⟩
      rw [decodeFamily0_exact, if_neg hcls, if_neg hret]
      exact ⟨rfl, hwf⟩

/-! ### Families 5 and 9 (rule R98) -/

/-- The instruction of a family 5 or 9 word is the one of its canonical reading, and its low nibble is allowed. -/
theorem decodeLowNib_eq_instr_iff {d : DecodeParams} {n : Nibble} {i j : Instr} :
    decodeLowNib d n i = .instr j ↔ i = j ∧ lowNibWellFormed d n = true := by
  by_cases hn : n = 0#4
  · cases hd : d.lowNib59 <;> simp [decodeLowNib, lowNibWellFormed, hd, hn]
  · cases hd : d.lowNib59 <;> simp [decodeLowNib, lowNibWellFormed, hd, hn]

/-! ### Families 8, E and F -/

/-- Family 8 drops no bit of the word, and what it decodes to is well formed. -/
theorem encode_of_decodeFamily8 {x y : RegIx} {n : Nibble} {i : Instr} (h : decodeFamily8 x y n = .instr i) :
    encode i = formatRR 0x8#4 x y n ∧ ∀ d, i.wf d = true := by
  unfold decodeFamily8 at h
  repeat' split at h
  all_goals cases h
  all_goals subst n; exact ⟨rfl, fun _ => rfl⟩

theorem encode_of_decodeFamilyE {x : RegIx} {nn : Byte} {i : Instr} (h : decodeFamilyE x nn = .instr i) :
    encode i = formatRB 0xE#4 x nn ∧ ∀ d, i.wf d = true := by
  unfold decodeFamilyE at h
  repeat' split at h
  all_goals cases h
  all_goals subst nn; exact ⟨rfl, fun _ => rfl⟩

theorem encode_of_decodeFamilyF {x : RegIx} {nn : Byte} {i : Instr} (h : decodeFamilyF x nn = .instr i) :
    encode i = formatRB 0xF#4 x nn ∧ ∀ d, i.wf d = true := by
  unfold decodeFamilyF at h
  repeat' split at h
  all_goals cases h
  all_goals subst nn; exact ⟨rfl, fun _ => rfl⟩

/-- The low nibbles of family 8 that rule R96 leaves without a handler are the ones the decoder does not name. -/
theorem decodeFamily8_eq_unimplemented_iff (x y : RegIx) (n : Nibble) :
    decodeFamily8 x y n = .unimplemented ↔ n ∈ [0x8#4, 0x9#4, 0xA#4, 0xB#4, 0xC#4, 0xD#4, 0xF#4] := by
  have hnames : n ∈ [0x8#4, 0x9#4, 0xA#4, 0xB#4, 0xC#4, 0xD#4, 0xF#4] ↔
      n ∉ [0x0#4, 0x1#4, 0x2#4, 0x3#4, 0x4#4, 0x5#4, 0x6#4, 0x7#4, 0xE#4] := by
    revert n; decide
  rw [hnames]
  unfold decodeFamily8
  repeat' split
  all_goals simp [*]

theorem decodeFamilyE_eq_unimplemented_iff (x : RegIx) (nn : Byte) :
    decodeFamilyE x nn = .unimplemented ↔ nn ∉ [0x9E#8, 0xA1#8] := by
  unfold decodeFamilyE
  repeat' split
  all_goals simp [*]

theorem decodeFamilyF_eq_unimplemented_iff (x : RegIx) (nn : Byte) :
    decodeFamilyF x nn = .unimplemented ↔
      nn ∉ [0x07#8, 0x0A#8, 0x15#8, 0x18#8, 0x1E#8, 0x29#8, 0x33#8, 0x55#8, 0x65#8] := by
  unfold decodeFamilyF
  repeat' split
  all_goals simp [*]

/-! ### Every word is laid out from its family -/

theorem exists_formatA {op : Word} {t : Nibble} (ht : opT op = t) : ∃ nnn, op = formatA t nnn :=
  ⟨opNNN op, by rw [← ht, formatA_fields]⟩

theorem exists_formatRB {op : Word} {t : Nibble} (ht : opT op = t) : ∃ x nn, op = formatRB t x nn :=
  ⟨opX op, opNN op, by rw [← ht, formatRB_fields]⟩

theorem exists_formatRR {op : Word} {t : Nibble} (ht : opT op = t) : ∃ x y n, op = formatRR t x y n :=
  ⟨opX op, opY op, opN op, by rw [← ht, formatRR_fields]⟩

theorem family_cases (t : Nibble) :
    t = 0x0#4 ∨ t = 0x1#4 ∨ t = 0x2#4 ∨ t = 0x3#4 ∨ t = 0x4#4 ∨ t = 0x5#4 ∨ t = 0x6#4 ∨ t = 0x7#4 ∨
      t = 0x8#4 ∨ t = 0x9#4 ∨ t = 0xA#4 ∨ t = 0xB#4 ∨ t = 0xC#4 ∨ t = 0xD#4 ∨ t = 0xE#4 ∨ t = 0xF#4 := by
  revert t; decide

/-- Under IGNORE only families 8, E and F have words without a handler (rule R96, decision D13). -/
theorem family_of_decode_unimplemented {f : Family0Decode} {op : Word}
    (h : decode ⟨f, .ignore⟩ op = .unimplemented) : opT op = 0x8#4 ∨ opT op = 0xE#4 ∨ opT op = 0xF#4 := by
  by_cases h8 : opT op = 0x8#4
  · exact .inl h8
  by_cases hE : opT op = 0xE#4
  · exact .inr (.inl hE)
  by_cases hF : opT op = 0xF#4
  · exact .inr (.inr hF)
  exfalso
  have hfamily := family_cases (opT op)
  simp only [h8, hE, hF, false_or, or_false] at hfamily
  rcases hfamily with ht | ht | ht | ht | ht | ht | ht | ht | ht | ht | ht | ht | ht <;>
    simp [decode, decodeLowNib, ht] at h

/-- The three lists of rule R96, each under the family it belongs to. -/
theorem decode_unimplemented_of_family8 {d : DecodeParams} {op : Word} (ht : opT op = 0x8#4) :
    decode d op = .unimplemented ↔ opN op ∈ [0x8#4, 0x9#4, 0xA#4, 0xB#4, 0xC#4, 0xD#4, 0xF#4] := by
  obtain ⟨x, y, n, rfl⟩ := exists_formatRR ht
  rw [decode_family8, opN_formatRR, decodeFamily8_eq_unimplemented_iff]

theorem decode_unimplemented_of_familyE {d : DecodeParams} {op : Word} (ht : opT op = 0xE#4) :
    decode d op = .unimplemented ↔ opNN op ∉ [0x9E#8, 0xA1#8] := by
  obtain ⟨x, nn, rfl⟩ := exists_formatRB ht
  rw [decode_familyE, opNN_formatRB, decodeFamilyE_eq_unimplemented_iff]

theorem decode_unimplemented_of_familyF {d : DecodeParams} {op : Word} (ht : opT op = 0xF#4) :
    decode d op = .unimplemented ↔
      opNN op ∉ [0x07#8, 0x0A#8, 0x15#8, 0x18#8, 0x1E#8, 0x29#8, 0x33#8, 0x55#8, 0x65#8] := by
  obtain ⟨x, nn, rfl⟩ := exists_formatRB ht
  rw [decode_familyF, opNN_formatRB, decodeFamilyF_eq_unimplemented_iff]

/-! ### The obligations -/

/-- Settles O1, by cases on the instruction: each layout is read back by its family's lemma, and well-formedness is used
where a word has more than one reading, by SYS and by the low nibble of SE and SNE. -/
theorem decodeOfEncodeIsTheInstruction : Obligations.DecodeOfEncodeIsTheInstruction := by
  intro d i hwf
  cases i with
  | sys nnn => exact decode_sys_of_wf hwf
  | cls => exact decode_cls d
  | ret => exact decode_ret d
  | jp nnn => exact decode_jp d nnn
  | call nnn => exact decode_call d nnn
  | seImm x nn => exact decode_seImm d x nn
  | sneImm x nn => exact decode_sneImm d x nn
  | seReg x y n => exact (decode_family5 d x y n).trans (decodeLowNib_eq_instr_iff.2 ⟨rfl, hwf⟩)
  | ldImm x nn => exact decode_ldImm d x nn
  | addImm x nn => exact decode_addImm d x nn
  | ldReg x y => exact decode_family8 d x y 0x0#4
  | orReg x y => exact decode_family8 d x y 0x1#4
  | andReg x y => exact decode_family8 d x y 0x2#4
  | xorReg x y => exact decode_family8 d x y 0x3#4
  | addReg x y => exact decode_family8 d x y 0x4#4
  | sub x y => exact decode_family8 d x y 0x5#4
  | shr x y => exact decode_family8 d x y 0x6#4
  | subn x y => exact decode_family8 d x y 0x7#4
  | shl x y => exact decode_family8 d x y 0xE#4
  | sneReg x y n => exact (decode_family9 d x y n).trans (decodeLowNib_eq_instr_iff.2 ⟨rfl, hwf⟩)
  | ldI nnn => exact decode_ldI d nnn
  | jpV0 nnn => exact decode_jpV0 d nnn
  | rnd x nn => exact decode_rnd d x nn
  | drw x y n => exact decode_drw d x y n
  | skp x => exact decode_familyE d x 0x9E#8
  | sknp x => exact decode_familyE d x 0xA1#8
  | ldVxDt x => exact decode_familyF d x 0x07#8
  | ldVxK x => exact decode_familyF d x 0x0A#8
  | ldDtVx x => exact decode_familyF d x 0x15#8
  | ldStVx x => exact decode_familyF d x 0x18#8
  | addI x => exact decode_familyF d x 0x1E#8
  | ldF x => exact decode_familyF d x 0x29#8
  | ldBcd x => exact decode_familyF d x 0x33#8
  | ldMemVx x => exact decode_familyF d x 0x55#8
  | ldVxMem x => exact decode_familyF d x 0x65#8

/-- A word that is the encoding of a well-formed instruction decodes to nothing else. -/
theorem encode_of_decode_of_eq_encode {d : DecodeParams} {op : Word} {i j : Instr} (hop : op = encode j)
    (hj : j.wf d = true) (h : decode d op = .instr i) : encode i = op ∧ i.wf d = true := by
  subst hop
  cases (decodeOfEncodeIsTheInstruction d j hj).symm.trans h
  exact ⟨rfl, hj⟩

/-- Settles O2, by cases on the family: the word is laid out from its fields, so it is the encoding of what its family
decodes it to. -/
theorem encodeOfDecodeIsTheOpcode : Obligations.EncodeOfDecodeIsTheOpcode := by
  intro low op i h
  rcases family_cases (opT op) with
    ht | ht | ht | ht | ht | ht | ht | ht | ht | ht | ht | ht | ht | ht | ht | ht
  · obtain ⟨nnn, rfl⟩ := exists_formatA ht
    cases (decode_family0 _ nnn).symm.trans h
    exact encode_decodeFamily0_exact low nnn
  · obtain ⟨nnn, hop⟩ := exists_formatA ht
    exact encode_of_decode_of_eq_encode (j := .jp nnn) hop rfl h
  · obtain ⟨nnn, hop⟩ := exists_formatA ht
    exact encode_of_decode_of_eq_encode (j := .call nnn) hop rfl h
  · obtain ⟨x, nn, hop⟩ := exists_formatRB ht
    exact encode_of_decode_of_eq_encode (j := .seImm x nn) hop rfl h
  · obtain ⟨x, nn, hop⟩ := exists_formatRB ht
    exact encode_of_decode_of_eq_encode (j := .sneImm x nn) hop rfl h
  · obtain ⟨x, y, n, rfl⟩ := exists_formatRR ht
    obtain ⟨rfl, hn⟩ := decodeLowNib_eq_instr_iff.1 ((decode_family5 _ x y n).symm.trans h)
    exact ⟨rfl, hn⟩
  · obtain ⟨x, nn, hop⟩ := exists_formatRB ht
    exact encode_of_decode_of_eq_encode (j := .ldImm x nn) hop rfl h
  · obtain ⟨x, nn, hop⟩ := exists_formatRB ht
    exact encode_of_decode_of_eq_encode (j := .addImm x nn) hop rfl h
  · obtain ⟨x, y, n, rfl⟩ := exists_formatRR ht
    obtain ⟨hop, hwf⟩ := encode_of_decodeFamily8 ((decode_family8 _ x y n).symm.trans h)
    exact ⟨hop, hwf _⟩
  · obtain ⟨x, y, n, rfl⟩ := exists_formatRR ht
    obtain ⟨rfl, hn⟩ := decodeLowNib_eq_instr_iff.1 ((decode_family9 _ x y n).symm.trans h)
    exact ⟨rfl, hn⟩
  · obtain ⟨nnn, hop⟩ := exists_formatA ht
    exact encode_of_decode_of_eq_encode (j := .ldI nnn) hop rfl h
  · obtain ⟨nnn, hop⟩ := exists_formatA ht
    exact encode_of_decode_of_eq_encode (j := .jpV0 nnn) hop rfl h
  · obtain ⟨x, nn, hop⟩ := exists_formatRB ht
    exact encode_of_decode_of_eq_encode (j := .rnd x nn) hop rfl h
  · obtain ⟨x, y, n, hop⟩ := exists_formatRR ht
    exact encode_of_decode_of_eq_encode (j := .drw x y n) hop rfl h
  · obtain ⟨x, nn, rfl⟩ := exists_formatRB ht
    obtain ⟨hop, hwf⟩ := encode_of_decodeFamilyE ((decode_familyE _ x nn).symm.trans h)
    exact ⟨hop, hwf _⟩
  · obtain ⟨x, nn, rfl⟩ := exists_formatRB ht
    obtain ⟨hop, hwf⟩ := encode_of_decodeFamilyF ((decode_familyF _ x nn).symm.trans h)
    exact ⟨hop, hwf _⟩

/-- Settles O3: no other family has a word without a handler, and in families 8, E and F the three lists are exact. -/
theorem wordsWithoutHandler : Obligations.WordsWithoutHandler := by
  intro f op
  constructor
  · intro h
    rcases family_of_decode_unimplemented h with ht | ht | ht
    · exact .inl ⟨ht, (decode_unimplemented_of_family8 ht).1 h⟩
    · exact .inr (.inl ⟨ht, (decode_unimplemented_of_familyE ht).1 h⟩)
    · exact .inr (.inr ⟨ht, (decode_unimplemented_of_familyF ht).1 h⟩)
  · rintro (⟨ht, hn⟩ | ⟨ht, hnn⟩ | ⟨ht, hnn⟩)
    · exact (decode_unimplemented_of_family8 ht).2 hn
    · exact (decode_unimplemented_of_familyE ht).2 hnn
    · exact (decode_unimplemented_of_familyF ht).2 hnn

/-- Settles O4: the two readings differ in how much of the address they compare. -/
theorem familyZeroReadings : Obligations.FamilyZeroReadings := by
  intro low nnn
  refine ⟨(decode_family0 _ nnn).trans ?_, (decode_family0 _ nnn).trans ?_⟩
  · rw [decodeFamily0_exact]
  · simp only [decodeFamily0_lowByte, extractLsb'_eq_iff_toNat_mod, BitVec.toNat_ofNat, Nat.reducePow, Nat.reduceMod]

/-- Settles O5: families 5 and 9 hand their low nibble to LOWNIB_59, whose three values are the three cases of
decodeLowNib. -/
theorem lowNibblePolicies : Obligations.LowNibblePolicies := by
  intro f x y n
  exact ⟨decode_family5 ⟨f, .ignore⟩ x y n, decode_family9 ⟨f, .ignore⟩ x y n, decode_family5 ⟨f, .nop⟩ x y n,
    decode_family9 ⟨f, .nop⟩ x y n, decode_family5 ⟨f, .fault⟩ x y n, decode_family9 ⟨f, .fault⟩ x y n⟩

/-- Settles O6, by running the decoder on the six words. -/
theorem sampleWordsDecode : Obligations.SampleWordsDecode := by
  unfold Obligations.SampleWordsDecode
  decide

end Sys2Proof.Machine
end

section
/-! What every instruction may write, whatever path it takes (spec/10_state.md, spec/41 to 46). -/

namespace Sys2Proof.Machine

/-! ### The execute phase of the instructions that no lemma above reads -/

theorem exec_rnd (x : RegIx) (nn : Byte) (s : State) :
    exec (.rnd x nn) s = .next (s.countDraw.setV x (s.drawByte &&& nn)) := rfl

theorem exec_skp (x : RegIx) (s : State) :
    exec (.skp x) s = .next (s.skipIf (s.pressedKey == some (s.v x))) := rfl

theorem exec_sknp (x : RegIx) (s : State) :
    exec (.sknp x) s = .next (s.skipIf (s.pressedKey != some (s.v x))) := rfl

theorem exec_addI_exact {s : State} {x : RegIx} (h : s.i.toNat + (s.v x).toNat ≤ 0xFFFF) :
    exec (.addI x) s = .next (s.setI (BitVec.ofNat 16 (s.i.toNat + (s.v x).toNat))) := by
  simp only [exec, execAddI, gt_iff_lt, if_neg (Nat.not_lt.2 h), done_outcome]

theorem exec_addI_raised {s : State} {x : RegIx} (h : 0xFFFF < s.i.toNat + (s.v x).toNat) :
    exec (.addI x) s = .next (takeError (.outOfBoundsAccess (s.i.toNat + (s.v x).toNat)) s) := by
  simp only [exec, execAddI, gt_iff_lt, if_pos h, raised_outcome]

/-- DXYN draws the rows one after another on the state with VF cleared, the origin and I taken from the start. -/
theorem exec_drw (x y : RegIx) (n : Nibble) (s : State) :
    exec (.drw x y n) s = (Effect.forEach
      (fun row => readInto (s.dataAddr row) fun b t => .done (drawRow (s.v x).toNat ((s.v y).toNat + row) b t))
      (List.range n.toNat) (s.setV vf 0x00#8)).outcome := rfl

theorem exec_ldBcd (x : RegIx) (s : State) :
    exec (.ldBcd x) s = (((memWrite (s.dataAddr 0) (hundreds (s.v x)) s).andThen
      (memWrite (s.dataAddr 1) (tens (s.v x)))).andThen (memWrite (s.dataAddr 2) (units (s.v x)))).outcome := rfl

theorem exec_ldMemVx (x : RegIx) (s : State) :
    exec (.ldMemVx x) s = ((Effect.forEach (fun k t => memWrite (s.dataAddr k) (t.v (regOf k)) t)
      (List.range (x.toNat + 1)) s).andThen fun t => .done (t.setI (indexAfter s.i x))).outcome := rfl

theorem exec_ldVxMem (x : RegIx) (s : State) :
    exec (.ldVxMem x) s = ((Effect.forEach (fun k => readInto (s.dataAddr k) fun b t => .done (t.setV (regOf k) b))
      (List.range (x.toNat + 1)) s).andThen fun t => .done (t.setI (indexAfter s.i x))).outcome := rfl

/-! ### Frames of the operations that have none yet -/

theorem countDraw_unchanged {w : Writes} (hdraws : w.draws = true) (s : State) : Unchanged w s s.countDraw := by
  simp [Unchanged, hdraws]

theorem takeError_unchanged {w : Writes} (hstatus : w.status = true) (e : Error) (s : State) :
    Unchanged w s (takeError e s) := by
  simp [Unchanged, hstatus]

/-- A frame still holds when the status may change too. -/
theorem Unchanged.allowStatus {w : Writes} {s t : State} (h : Unchanged w s t) :
    Unchanged { w with status := true } s t := by
  simp only [Unchanged] at h ⊢
  simp_all

theorem push_unchanged {w : Writes} (hstack : w.stack = true) (a : Word) (s : State) :
    Unchanged w s (push a s).state := by
  unfold push
  split
  · exact Unchanged.refl w s
  · exact withStack_unchanged hstack s _

theorem popInto_unchanged {w : Writes} (hstack : w.stack = true) {k : Word → State → Effect}
    (hk : ∀ a t, Unchanged w t (k a t).state) (s : State) : Unchanged w s (popInto k s).state := by
  cases hs : s.stack with
  | nil => rw [popInto_nil hs]; exact Unchanged.refl w s
  | cons a rest => rw [popInto_cons hs]; exact (withStack_unchanged hstack s rest).trans (hk a _)

theorem drawRow_unchanged (x0 y : Nat) (b : Byte) (s : State) : Unchanged drawWrites s (drawRow x0 y b s) := by
  rw [drawRow_eq]
  exact drawList_unchanged _ s

/-! ### The table of writesOf -/

/-- FX0A writes pc when it waits and V[X] when a key is pressed. -/
theorem exec_ldVxK_unchanged {x : RegIx} {s t : State} (h : exec (.ldVxK x) s = .next t) :
    Unchanged { regs := [x], pc := true } s t := by
  cases hkey : s.pressedKey with
  | none =>
    cases (exec_ldVxK_none hkey x).symm.trans h
    exact setPc_unchanged rfl s _
  | some k =>
    cases (exec_ldVxK_some hkey x).symm.trans h
    exact setV_unchanged (by simp) s k

theorem exec_addI_unchanged {x : RegIx} {s t : State} (h : exec (.addI x) s = .next t) :
    Unchanged { i := true, status := true } s t := by
  rcases Nat.lt_or_ge 0xFFFF (s.i.toNat + (s.v x).toNat) with hsum | hsum
  · cases (exec_addI_raised hsum).symm.trans h
    exact takeError_unchanged rfl _ s
  · cases (exec_addI_exact hsum).symm.trans h
    exact setI_unchanged rfl s _

theorem exec_drw_unchanged {x y : RegIx} {n : Nibble} {s t : State} (h : exec (.drw x y n) s = .next t) :
    Unchanged { drawWrites with status := true } s t := by
  refine Unchanged.outcome rfl ((setV_unchanged (by simp) s 0x00#8).trans (forEach_unchanged (fun row _ u => ?_) _)) h
  exact readInto_unchanged fun b => (drawRow_unchanged _ _ b u).allowStatus

theorem exec_ldBcd_unchanged {x : RegIx} {s t : State} (h : exec (.ldBcd x) s = .next t) :
    Unchanged { mem := [s.dataAddr 0, s.dataAddr 1, s.dataAddr 2], status := true } s t := by
  refine Unchanged.outcome rfl (andThen_unchanged (andThen_unchanged ?_ fun u => ?_) fun u => ?_) h
  · exact memWrite_unchanged (by simp)
  · exact memWrite_unchanged (by simp)
  · exact memWrite_unchanged (by simp)

theorem exec_ldMemVx_unchanged {x : RegIx} {s t : State} (h : exec (.ldMemVx x) s = .next t) :
    Unchanged { i := true, mem := (List.range (x.toNat + 1)).map s.dataAddr, status := true } s t := by
  refine Unchanged.outcome rfl (andThen_unchanged (forEach_unchanged (fun k hk u => ?_) s) fun u => ?_) h
  · exact memWrite_unchanged (List.mem_map_of_mem hk)
  · exact setI_unchanged rfl u _

theorem exec_ldVxMem_unchanged {x : RegIx} {s t : State} (h : exec (.ldVxMem x) s = .next t) :
    Unchanged { i := true, regs := (List.range (x.toNat + 1)).map (BitVec.ofNat 4), status := true } s t := by
  refine Unchanged.outcome rfl (andThen_unchanged (forEach_unchanged (fun k hk u => ?_) s) fun u => ?_) h
  · exact readInto_unchanged fun b => setV_unchanged (List.mem_map_of_mem hk) u b
  · exact setI_unchanged rfl u _

/-- Settles O54, by cases on the instruction: each is made of operations whose frames its row of writesOf covers. -/
theorem instructionsWriteOnlyTheirTargets : Obligations.InstructionsWriteOnlyTheirTargets := by
  intro i s t h
  cases i with
  | sys _ | jp _ | jpV0 _ => cases h; exact setPc_unchanged rfl s _
  | seImm _ _ | sneImm _ _ | seReg _ _ _ | sneReg _ _ _ | skp _ | sknp _ => cases h; exact skipIf_unchanged rfl s _
  | ret => exact Unchanged.outcome rfl (popInto_unchanged rfl (fun a u => setPc_unchanged rfl u a) s) h
  | call nnn =>
    exact Unchanged.outcome rfl (andThen_unchanged (push_unchanged rfl s.pc s) fun u => setPc_unchanged rfl u _) h
  | cls => cases h; exact (clearPixels_unchanged rfl s).trans (setDirty_unchanged rfl _ true)
  | ldImm x _ | addImm x _ | ldReg x _ | orReg x _ | andReg x _ | xorReg x _ | ldVxDt x =>
    cases h; exact (setV_spec s x _).2
  | addReg x y => cases h; exact (setV_then_flag_spec s x _ _).2.2
  | sub x _ | shr x _ | subn x _ | shl x _ => cases h; exact (flag_then_setV_spec s x _ _).2.2
  | rnd x _ => cases h; exact (countDraw_unchanged rfl s).trans (setV_unchanged (by simp [writesOf]) _ _)
  | ldI _ | ldF _ => cases h; exact setI_unchanged rfl s _
  | addI x => exact exec_addI_unchanged h
  | drw x y n => exact exec_drw_unchanged h
  | ldVxK x => exact exec_ldVxK_unchanged h
  | ldDtVx x => cases h; exact setDt_unchanged rfl s _
  | ldStVx x => cases h; exact setSt_unchanged rfl s _
  | ldBcd x => exact exec_ldBcd_unchanged h
  | ldMemVx x => exact exec_ldMemVx_unchanged h
  | ldVxMem x => exact exec_ldVxMem_unchanged h

end Sys2Proof.Machine
end

section
/-! The errors of the execute phase (spec/60_exceptions.md rule R302). -/

namespace Sys2Proof.Machine

/-- An effect started in `s` that keeps the status to its end and raises nothing but an access above 0xFFF. -/
def Effect.OnlyOutOfBounds (s : State) : Effect → Prop
  | .done t => t.status = s.status
  | .raised e _ => ∃ a, e = .outOfBoundsAccess a ∧ 0xFFF < a

theorem memWrite_onlyOutOfBounds (a : Nat) (b : Byte) (s : State) : (memWrite a b s).OnlyOutOfBounds s := by
  by_cases ha : a ≤ 0xFFF
  · rw [memWrite_done ha]; exact putByte_status s a b
  · rw [memWrite_raised ha]; exact ⟨a, rfl, Nat.not_le.1 ha⟩

theorem readInto_onlyOutOfBounds {k : Byte → State → Effect} {s : State} (hk : ∀ b, (k b s).OnlyOutOfBounds s)
    (a : Nat) : (readInto a k s).OnlyOutOfBounds s := by
  by_cases ha : a ≤ 0xFFF
  · rw [readInto_ok ha]; exact hk _
  · rw [readInto_error ha]; exact ⟨a, rfl, Nat.not_le.1 ha⟩

theorem andThen_onlyOutOfBounds {r : Effect} {f : State → Effect} {s : State} (hr : r.OnlyOutOfBounds s)
    (hf : ∀ t, (f t).OnlyOutOfBounds t) : (r.andThen f).OnlyOutOfBounds s := by
  cases r with
  | raised e t => exact hr
  | done t =>
    have ht : t.status = s.status := hr
    have hft := hf t
    rw [done_andThen]
    cases hft' : f t with
    | raised e u => rwa [hft'] at hft
    | done u => rw [hft'] at hft; exact Eq.trans hft ht

theorem forEach_onlyOutOfBounds {α : Type} {f : α → State → Effect} (hf : ∀ a t, (f a t).OnlyOutOfBounds t)
    (l : List α) (s : State) : (Effect.forEach f l s).OnlyOutOfBounds s := by
  induction l generalizing s with
  | nil => exact (rfl : s.status = s.status)
  | cons a l ih => rw [forEach_cons]; exact andThen_onlyOutOfBounds (hf a s) ih

/-- Such an effect answers a next state, whose status is the old one or names the address. -/
theorem outcome_onlyOutOfBounds {r : Effect} {s : State} (h : r.OnlyOutOfBounds s) : ∃ t, r.outcome = .next t ∧
    (t.status = s.status ∨ ∃ a, t.status = .faulted (.outOfBoundsAccess a) ∧ 0xFFF < a) := by
  cases r with
  | done t => exact ⟨t, rfl, .inl h⟩
  | raised e t =>
    obtain ⟨a, rfl, ha⟩ := h
    exact ⟨_, rfl, .inr ⟨a, takeError_status t _, ha⟩⟩

/-- A row drawn keeps the status. -/
theorem drawRow_status (x0 y : Nat) (b : Byte) (s : State) : (drawRow x0 y b s).status = s.status := by
  obtain ⟨-, -, -, -, -, -, -, -, -, -, hstatus, -⟩ := drawRow_unchanged x0 y b s
  exact hstatus rfl

/-- The four instructions that access data memory. -/
def AccessesData (i : Instr) : Prop :=
  (∃ x y n, i = .drw x y n) ∨ (∃ x, i = .ldBcd x) ∨ (∃ x, i = .ldMemVx x) ∨ (∃ x, i = .ldVxMem x)

theorem exec_onlyOutOfBounds {i : Instr} (hi : AccessesData i) (s : State) :
    ∃ r : Effect, exec i s = r.outcome ∧ r.OnlyOutOfBounds s := by
  rcases hi with ⟨x, y, n, rfl⟩ | ⟨x, rfl⟩ | ⟨x, rfl⟩ | ⟨x, rfl⟩
  · refine ⟨_, exec_drw x y n s, forEach_onlyOutOfBounds (fun row t => ?_) _ (s.setV vf 0x00#8)⟩
    refine readInto_onlyOutOfBounds (fun b => ?_) _
    exact drawRow_status _ _ b t
  · refine ⟨_, exec_ldBcd x s, andThen_onlyOutOfBounds (andThen_onlyOutOfBounds ?_ fun t => ?_) fun t => ?_⟩
    · exact memWrite_onlyOutOfBounds _ _ s
    · exact memWrite_onlyOutOfBounds _ _ t
    · exact memWrite_onlyOutOfBounds _ _ t
  · refine ⟨_, exec_ldMemVx x s, andThen_onlyOutOfBounds (forEach_onlyOutOfBounds (fun k t => ?_) _ s) fun t => ?_⟩
    · exact memWrite_onlyOutOfBounds _ _ t
    · exact setI_status t _
  · refine ⟨_, exec_ldVxMem x s, andThen_onlyOutOfBounds (forEach_onlyOutOfBounds (fun k t => ?_) _ s) fun t => ?_⟩
    · refine readInto_onlyOutOfBounds (fun b => ?_) _
      exact setV_status t _ b
    · exact setI_status t _

theorem exec_accessesData {i : Instr} (hi : AccessesData i) (s : State) : ∃ t, exec i s = .next t ∧
    (t.status = s.status ∨ ∃ a, t.status = .faulted (.outOfBoundsAccess a) ∧ 0xFFF < a ∧ AccessesData i) := by
  obtain ⟨r, hr, herrors⟩ := exec_onlyOutOfBounds hi s
  obtain ⟨t, ht, hstatus⟩ := outcome_onlyOutOfBounds herrors
  exact ⟨t, hr.trans ht, hstatus.imp id fun ⟨a, hfault, ha⟩ => ⟨a, hfault, ha, hi⟩⟩

/-- Only a bounded stack is ever full. -/
theorem stackDepth_ne_none_of_stackFull {s : State} (h : s.stackFull = true) : s.params.stackDepth ≠ none :=
  fun hnone => Bool.eq_false_iff.1 ((stackFull_eq_false_iff s).2 (.inl hnone)) h

/-- Settles O55: the instructions that access data memory by the errors of an access, and the others by cases: RET, CALL and
ADD I by what they test, while each of the rest has one outcome, which keeps the status. -/
theorem errorsOfTheExecutePhase : Obligations.ErrorsOfTheExecutePhase := by
  intro i s
  by_cases hi : AccessesData i
  · obtain ⟨t, ht, hstatus⟩ := exec_accessesData hi s
    exact ⟨t, ht, hstatus.imp id fun herror => .inr (.inr (.inl herror))⟩
  cases i with
  | ret =>
    cases hs : s.stack with
    | nil => exact ⟨_, exec_ret_nil hs, .inr (.inl ⟨rfl, rfl⟩)⟩
    | cons a rest => exact ⟨_, exec_ret_cons hs, .inl rfl⟩
  | call nnn =>
    cases hfull : s.stackFull with
    | false => exact ⟨_, exec_call_done hfull nnn, .inl rfl⟩
    | true =>
      have hdepth := stackDepth_ne_none_of_stackFull hfull
      exact ⟨_, exec_call_overflow hfull nnn, .inr (.inr (.inl ⟨nnn, rfl, rfl, hdepth⟩))⟩
  | addI x =>
    rcases Nat.lt_or_ge 0xFFFF (s.i.toNat + (s.v x).toNat) with hsum | hsum
    · exact ⟨_, exec_addI_raised hsum, .inr (.inr (.inr (.inr ⟨_, x, rfl, rfl, hsum⟩)))⟩
    · exact ⟨_, exec_addI_exact hsum, .inl rfl⟩
  | ldVxK x =>
    cases hkey : s.pressedKey with
    | none => exact ⟨_, exec_ldVxK_none hkey x, .inl rfl⟩
    | some k => exact ⟨_, exec_ldVxK_some hkey x, .inl rfl⟩
  | drw x y n => exact absurd (.inl ⟨x, y, n, rfl⟩) hi
  | ldBcd x => exact absurd (.inr (.inl ⟨x, rfl⟩)) hi
  | ldMemVx x => exact absurd (.inr (.inr (.inl ⟨x, rfl⟩))) hi
  | ldVxMem x => exact absurd (.inr (.inr (.inr ⟨x, rfl⟩))) hi
  | seImm _ _ | sneImm _ _ | seReg _ _ _ | sneReg _ _ _ | skp _ | sknp _ =>
    exact ⟨_, rfl, .inl (skipIf_status s _)⟩
  | sys _ | cls | jp _ | ldImm _ _ | addImm _ _ | ldReg _ _ | orReg _ _ | andReg _ _ | xorReg _ _ | addReg _ _
  | sub _ _ | shr _ _ | subn _ _ | shl _ _ | ldI _ | jpV0 _ | rnd _ _ | ldVxDt _ | ldDtVx _ | ldStVx _ | ldF _ =>
    exact ⟨_, rfl, .inl rfl⟩

end Sys2Proof.Machine
end

section
/-! One transition of the machine: what a turn of the executor and an event can do (spec/40_execution_cycle.md,
spec/60_exceptions.md). -/

namespace Sys2Proof.Machine

/-! ### The executor's turn -/

theorem executorStep_unreset {s : State} (hs : s.status = .unreset) : executorStep s = .refused .calledBeforeReset := by
  simp only [executorStep, hs]

theorem executorStep_faulted {s : State} {e : Error} (hs : s.status = .faulted e) : executorStep s = .next s := by
  simp only [executorStep, hs]

/-- All that a call of step() can do: nothing in FAULTED; in RUNNING a fetch error with pc kept, or, with pc advanced, a
NOP, an opcode without a handler or the execute phase of an instruction. -/
theorem executorStep_cases {s t : State} (h : executorStep s = .next t) :
    ((∃ e, s.status = .faulted e) ∧ t = s) ∨
    (s.status = .running ∧ ∃ e, t = takeError e s) ∨
    (s.status = .running ∧ s.pc.toNat ≤ 0xFFE ∧
      (t = s.advancePc ∨ (∃ e, t = takeError e s.advancePc) ∨ ∃ i, exec i s.advancePc = .next t)) := by
  cases hs : s.status with
  | unreset => cases (executorStep_unreset hs).symm.trans h
  | faulted e =>
    cases (executorStep_faulted hs).symm.trans h
    exact .inl ⟨⟨e, rfl⟩, rfl⟩
  | running =>
    by_cases hpc : s.pc.toNat ≤ 0xFFE
    · refine .inr (.inr ⟨rfl, hpc, ?_⟩)
      rw [executorStep_running hs hpc] at h
      cases hdecode : decode s.params.decode s.opcodeAtPc with
      | instr i => rw [hdecode] at h; exact .inr (.inr ⟨i, h⟩)
      | noOp => rw [hdecode] at h; cases h; exact .inl rfl
      | unimplemented => rw [hdecode] at h; cases h; exact .inr (.inl ⟨_, rfl⟩)
    · cases (executorStep_fetch_error hs hpc).symm.trans h
      exact .inr (.inl ⟨rfl, _, rfl⟩)

/-! ### The other agents' turns -/

/-- The fields that ticks and the host's calls but reset may write: the timers, KEY and DIRTY. -/
def State.withPorts (s : State) (dt st : Byte) (key : BitVec 16) (dirty : Bool) : State :=
  { s with dt := dt, st := st, key := key, dirty := dirty }

theorem delayTick_unreset {s : State} (hs : s.status = .unreset) : delayTick s = s := by
  simp only [delayTick, hs]

theorem soundTick_unreset {s : State} (hs : s.status = .unreset) : soundTick s = s := by
  simp only [soundTick, hs]

theorem delayTick_inSession {s : State} (hs : s.status ≠ .unreset) :
    delayTick s = s.setDt (tickValue s.params.timerZero s.params.restartDT s.dt) := by
  unfold delayTick
  split
  next hunreset => exact absurd hunreset hs
  next => rfl
  next => rfl

theorem soundTick_inSession {s : State} (hs : s.status ≠ .unreset) :
    soundTick s = s.setSt (tickValue s.params.timerZero s.params.restartST s.st) := by
  unfold soundTick
  split
  next hunreset => exact absurd hunreset hs
  next => rfl
  next => rfl

theorem delayTick_eq (s : State) : ∃ b, delayTick s = s.setDt b := by
  by_cases hs : s.status = .unreset
  · exact ⟨s.dt, delayTick_unreset hs⟩
  · exact ⟨_, delayTick_inSession hs⟩

theorem soundTick_eq (s : State) : ∃ b, soundTick s = s.setSt b := by
  by_cases hs : s.status = .unreset
  · exact ⟨s.st, soundTick_unreset hs⟩
  · exact ⟨_, soundTick_inSession hs⟩

theorem setKeyPressed_eq (k : Nat) (s : State) : ∃ key, (setKeyPressed k s).2 = s.withPorts s.dt s.st key s.dirty := by
  unfold setKeyPressed
  split
  · exact ⟨_, rfl⟩
  · exact ⟨s.key, rfl⟩

theorem setKeyReleased_eq (k : Nat) (s : State) :
    ∃ key, (setKeyReleased k s).2 = s.withPorts s.dt s.st key s.dirty := by
  unfold setKeyReleased
  split
  · exact ⟨_, rfl⟩
  · exact ⟨s.key, rfl⟩

theorem readPixel_snd (x y : Nat) (s : State) : (readPixel x y s).2 = s := by
  unfold readPixel
  split
  · rfl
  · split <;> rfl

/-- An accepted call answers what it would answer. -/
theorem eventState_afterReset {s t : State} {answer : Reply × State} (h : eventState (afterReset s answer) = .next t) :
    t = answer.2 := by
  cases hs : s.status <;> simp only [afterReset, hs] at h <;> cases h <;> rfl

theorem perform_reset_fits {program : List Byte} (h : program.length ≤ maxProgram) (s : State) :
    perform (.reset (some program)) s = .next (.ok, s.load program) := by
  simp only [perform, resetCall, if_pos h]

theorem perform_reset_tooLong {program : List Byte} (h : maxProgram < program.length) (s : State) :
    perform (.reset (some program)) s = .refused (.programTooLong program.length) := by
  simp only [perform, resetCall, if_neg (Nat.not_le.2 h)]

/-- All that an event can do: a failed reset, a load, or a write of the agents' own fields. -/
theorem perform_cases {e : Event} {s t : State} (h : eventState (perform e s) = .next t) :
    (e = .reset none ∧ t = { s with status := .unreset }) ∨
    (∃ program, e = .reset (some program) ∧ program.length ≤ maxProgram ∧ t = s.load program) ∨
    ((∀ image, e ≠ .reset image) ∧ ∃ dt st key dirty, t = s.withPorts dt st key dirty) := by
  cases e with
  | reset image =>
    cases image with
    | none => cases h; exact .inl ⟨rfl, rfl⟩
    | some program =>
      rcases Nat.lt_or_ge maxProgram program.length with hlong | hfit
      · rw [perform_reset_tooLong hlong] at h
        cases h
      · rw [perform_reset_fits hfit] at h
        cases h
        exact .inr (.inl ⟨program, rfl, hfit, rfl⟩)
  | delayTick =>
    cases h
    obtain ⟨b, hb⟩ := delayTick_eq s
    exact .inr (.inr ⟨nofun, b, s.st, s.key, s.dirty, hb⟩)
  | soundTick =>
    cases h
    obtain ⟨b, hb⟩ := soundTick_eq s
    exact .inr (.inr ⟨nofun, s.dt, b, s.key, s.dirty, hb⟩)
  | setKeyPressed k =>
    cases h
    obtain ⟨key, hkey⟩ := setKeyPressed_eq k s
    exact .inr (.inr ⟨nofun, s.dt, s.st, key, s.dirty, hkey⟩)
  | setKeyReleased k =>
    cases h
    obtain ⟨key, hkey⟩ := setKeyReleased_eq k s
    exact .inr (.inr ⟨nofun, s.dt, s.st, key, s.dirty, hkey⟩)
  | readPixel x y =>
    have ht : t = s := (eventState_afterReset h).trans (readPixel_snd x y s)
    exact .inr (.inr ⟨nofun, s.dt, s.st, s.key, s.dirty, ht⟩)
  | takeDirtyFlag =>
    have ht : t = s.setDirty false := eventState_afterReset h
    exact .inr (.inr ⟨nofun, s.dt, s.st, s.key, false, ht⟩)

/-- A transition is a turn of the executor or an event, on the state with the turn taken. -/
theorem step_cases {s t : State} (h : step s = .next t) :
    (s.turn = none ∧ executorStep s.dropTurn = .next t) ∨
    ∃ e, s.turn = some e ∧ eventState (perform e s.dropTurn) = .next t := by
  cases hturn : s.turn with
  | none => exact .inl ⟨rfl, (step_executor hturn).symm.trans h⟩
  | some e => exact .inr ⟨e, rfl, (step_event hturn).symm.trans h⟩

/-! ### What the executor never writes -/

/-- No row of writesOf names KEY. -/
theorem writesOf_key (s : State) (i : Instr) : (writesOf s i).key = false := by
  cases i <;> rfl

theorem exec_key {i : Instr} {s t : State} (h : exec i s = .next t) : t.key = s.key := by
  obtain ⟨-, -, -, -, -, -, -, -, hkey, -⟩ := instructionsWriteOnlyTheirTargets i s t h
  exact hkey (writesOf_key s i)

theorem exec_params {i : Instr} {s t : State} (h : exec i s = .next t) : t.params = s.params := by
  obtain ⟨-, -, -, -, -, -, -, -, -, -, -, -, hparams, -⟩ := instructionsWriteOnlyTheirTargets i s t h
  exact hparams

theorem exec_agenda {i : Instr} {s t : State} (h : exec i s = .next t) : t.agenda = s.agenda := by
  obtain ⟨-, -, -, -, -, -, -, -, -, -, -, -, -, hagenda⟩ := instructionsWriteOnlyTheirTargets i s t h
  exact hagenda

/-- A turn of the executor keeps KEY, the parameters and the agenda. -/
theorem executorStep_keeps {s t : State} (h : executorStep s = .next t) :
    t.key = s.key ∧ t.params = s.params ∧ t.agenda = s.agenda := by
  rcases executorStep_cases h with ⟨-, rfl⟩ | ⟨-, e, rfl⟩ | ⟨-, -, rfl | ⟨e, rfl⟩ | ⟨i, hi⟩⟩
  · exact ⟨rfl, rfl, rfl⟩
  · exact ⟨rfl, rfl, rfl⟩
  · exact ⟨rfl, rfl, rfl⟩
  · exact ⟨rfl, rfl, rfl⟩
  · exact ⟨(exec_key hi).trans (advancePc_key s), (exec_params hi).trans (advancePc_params s),
      (exec_agenda hi).trans (advancePc_agenda s)⟩

/-- Settles O56: a turn of the executor in FAULTED changes nothing, and of the events only a reset writes the status; the
parameters are in no write at all. -/
theorem onlyResetLeavesFaulted : Obligations.OnlyResetLeavesFaulted := by
  intro s t h
  rcases step_cases h with ⟨-, hexec⟩ | ⟨event, hturn, hevent⟩
  · obtain ⟨-, hparams, -⟩ := executorStep_keeps hexec
    refine ⟨hparams, fun e hs => .inl ?_⟩
    cases (executorStep_faulted (s := s.dropTurn) hs).symm.trans hexec
    exact hs
  · rcases perform_cases hevent with ⟨rfl, rfl⟩ | ⟨program, rfl, -, rfl⟩ | ⟨-, dt, st, key, dirty, rfl⟩
    · exact ⟨rfl, fun e _ => .inr ⟨_, hturn⟩⟩
    · exact ⟨rfl, fun e _ => .inr ⟨_, hturn⟩⟩
    · exact ⟨rfl, fun e hs => .inl hs⟩

/-- Settles O57: no row of writesOf names KEY, and an event that is no reset writes the agents' own fields only. -/
theorem agentsKeepToTheirFields : Obligations.AgentsKeepToTheirFields := by
  intro s t h
  rcases step_cases h with ⟨hnone, hexec⟩ | ⟨event, hturn, hevent⟩
  · refine ⟨fun _ => (executorStep_keeps hexec).1, fun e he => ?_⟩
    cases hnone.symm.trans he
  · refine ⟨fun hnone => ?_, fun e he hreset => ?_⟩
    · cases hnone.symm.trans hturn
    · cases hturn.symm.trans he
      rcases perform_cases hevent with ⟨he, -⟩ | ⟨program, he, -⟩ | ⟨-, dt, st, key, dirty, rfl⟩
      · exact absurd he (hreset none)
      · exact absurd he (hreset (some program))
      · exact ⟨rfl, rfl, rfl, rfl, rfl, rfl, rfl⟩

end Sys2Proof.Machine
end

section
/-! The invariant (spec/10_state.md, spec/20_memory.md). -/

namespace Sys2Proof.Machine

theorem inv_iff (s : State) : s.inv = true ↔ Memory.wf s.params.unlisted s.mem = true ∧ s.pc.toNat ≤ 0x10FE ∧
    (∀ w ∈ s.stack, w.toNat ≤ 0x1000) ∧ s.stackBounded = true := by
  simp [State.inv, and_assoc]

theorem stackBounded_eq_true_iff (s : State) :
    s.stackBounded = true ↔ ∀ n, s.params.stackDepth = some n → s.stack.length ≤ n := by
  cases hdepth : s.params.stackDepth <;> simp [State.stackBounded, hdepth]

/-! ### Each operation keeps it -/

/-- The invariant reads memory, its parameters, pc and the stack. -/
theorem inv_of_eq {s t : State} (hs : s.inv = true) (hparams : t.params = s.params) (hmem : t.mem = s.mem)
    (hpc : t.pc = s.pc) (hstack : t.stack = s.stack) : t.inv = true := by
  rw [inv_iff, stackBounded_eq_true_iff] at hs ⊢
  rwa [hparams, hmem, hpc, hstack]

theorem inv_setPc {s : State} (hs : s.inv = true) {w : Word} (hw : w.toNat ≤ 0x10FE) : (s.setPc w).inv = true := by
  obtain ⟨hmem, -, hstack, hbounded⟩ := (inv_iff s).1 hs
  exact (inv_iff _).2 ⟨hmem, hw, hstack, hbounded⟩

/-- A skip from a pc up to 0x1000 stays inside the bound. -/
theorem inv_skipIf {s : State} (hs : s.inv = true) (hpc : s.pc.toNat ≤ 0x1000) (c : Bool) :
    (s.skipIf c).inv = true := by
  cases c with
  | false => exact hs
  | true => exact inv_setPc hs (by rw [BitVec.toNat_add, BitVec.toNat_ofNat]; omega)

theorem inv_putByte {s : State} (hs : s.inv = true) {a : Nat} (ha : a ≤ 0xFFF) (b : Byte) :
    (s.putByte a b).inv = true := by
  obtain ⟨hmem, hpc, hstack, hbounded⟩ := (inv_iff s).1 hs
  exact (inv_iff _).2 ⟨putByte_wf b ha hmem, hpc, hstack, hbounded⟩

theorem inv_memWrite {s : State} (hs : s.inv = true) (a : Nat) (b : Byte) : (memWrite a b s).state.inv = true := by
  by_cases ha : a ≤ 0xFFF
  · rw [memWrite_done ha]; exact inv_putByte hs ha b
  · rw [memWrite_raised ha]; exact hs

theorem inv_push {s : State} (hs : s.inv = true) {w : Word} (hw : w.toNat ≤ 0x1000) :
    (push w s).state.inv = true := by
  cases hfull : s.stackFull with
  | true => rw [push_raised hfull]; exact hs
  | false =>
    rw [push_done hfull]
    obtain ⟨hmem, hpc, hstack, -⟩ := (inv_iff s).1 hs
    refine (inv_iff _).2 ⟨hmem, hpc, List.forall_mem_cons.2 ⟨hw, hstack⟩, (stackBounded_eq_true_iff _).2 fun n hn => ?_⟩
    rcases (stackFull_eq_false_iff s).1 hfull with hnone | ⟨m, hm, hlt⟩
    · cases hnone.symm.trans hn
    · cases hm.symm.trans hn
      exact hlt

theorem inv_pop {s : State} (hs : s.inv = true) {w : Word} {rest : List Word} (h : s.stack = w :: rest) :
    State.inv { s with stack := rest } = true ∧ w.toNat ≤ 0x1000 := by
  obtain ⟨hmem, hpc, hstack, hbounded⟩ := (inv_iff s).1 hs
  rw [h, List.forall_mem_cons] at hstack
  refine ⟨(inv_iff _).2 ⟨hmem, hpc, hstack.2, (stackBounded_eq_true_iff _).2 fun n hn => ?_⟩, hstack.1⟩
  have hlen := (stackBounded_eq_true_iff s).1 hbounded n hn
  rw [h, List.length_cons] at hlen
  exact Nat.le_of_succ_le hlen

theorem inv_andThen {r : Effect} {f : State → Effect} (hr : r.state.inv = true)
    (hf : ∀ t, t.inv = true → (f t).state.inv = true) : (r.andThen f).state.inv = true := by
  cases r with
  | done t => exact hf t hr
  | raised e t => exact hr

theorem inv_readInto {s : State} (hs : s.inv = true) {k : Byte → State → Effect}
    (hk : ∀ b, (k b s).state.inv = true) (a : Nat) : (readInto a k s).state.inv = true := by
  by_cases ha : a ≤ 0xFFF
  · rw [readInto_ok ha]; exact hk _
  · rw [readInto_error ha]; exact hs

theorem inv_forEach {α : Type} {f : α → State → Effect} (hf : ∀ a t, t.inv = true → (f a t).state.inv = true)
    (l : List α) {s : State} (hs : s.inv = true) : (Effect.forEach f l s).state.inv = true :=
  forEach_state_rel (fun s t => s.inv = true → t.inv = true) (fun _ => id) (fun _ _ _ hst htu => htu ∘ hst)
    (fun a _ t => hf a t) s hs

/-- Taking an error keeps the invariant of the state the effect ended in. -/
theorem inv_outcome {r : Effect} {t : State} (hr : r.state.inv = true) (h : r.outcome = .next t) : t.inv = true := by
  cases r with
  | done u => cases h; exact hr
  | raised e u => cases h; exact hr

theorem inv_togglePixel {s : State} (hs : s.inv = true) (x y : Nat) : (s.togglePixel x y).inv = true :=
  inv_of_eq hs (togglePixel_params s x y) (togglePixel_mem s x y) (togglePixel_pc s x y) (togglePixel_stack s x y)

theorem inv_drawBit {s : State} (hs : s.inv = true) (x y : Nat) : (drawBit x y s).inv = true := by
  unfold drawBit
  split
  · exact inv_togglePixel (s := s.setV vf (flagByte true)) hs x y
  · exact inv_togglePixel hs x y

theorem inv_drawList (l : List (Nat × Nat)) {s : State} (hs : s.inv = true) : (drawList l s).inv = true := by
  induction l generalizing s with
  | nil => exact hs
  | cons p l ih => exact ih (inv_drawBit hs p.1 p.2)

theorem inv_drawRow (x0 y : Nat) (b : Byte) {s : State} (hs : s.inv = true) : (drawRow x0 y b s).inv = true := by
  rw [drawRow_eq]
  exact inv_drawList _ hs

/-! ### Each instruction keeps it -/

/-- The largest jump target is NNN, or 0xFF + 0xFFF by way of V0 (rule R144). -/
theorem toNat_zextAddr_le (nnn : Addr12) : (zextAddr nnn).toNat ≤ 0x10FE := by
  have hnnn := nnn.isLt
  rw [toNat_zextAddr]
  omega

theorem toNat_jumpV0Target_le (v0 : Byte) (nnn : Addr12) : (jumpV0Target v0 nnn).toNat ≤ 0x10FE := by
  have hv0 := v0.isLt
  have hnnn := nnn.isLt
  rw [toNat_jumpV0Target]
  omega

theorem exec_inv {i : Instr} {s t : State} (hs : s.inv = true) (hlow : 2 ≤ s.pc.toNat) (hhigh : s.pc.toNat ≤ 0x1000)
    (h : exec i s = .next t) : t.inv = true := by
  cases i with
  | sys nnn | jp nnn => cases h; exact inv_setPc hs (toNat_zextAddr_le nnn)
  | jpV0 nnn => cases h; exact inv_setPc hs (toNat_jumpV0Target_le _ nnn)
  | call nnn =>
    refine inv_outcome (inv_andThen (inv_push hs hhigh) fun u hu => ?_) h
    exact inv_setPc hu (toNat_zextAddr_le nnn)
  | ret =>
    cases hstack : s.stack with
    | nil => cases (exec_ret_nil hstack).symm.trans h; exact hs
    | cons w rest =>
      obtain ⟨hpop, hw⟩ := inv_pop hs hstack
      cases (exec_ret_cons hstack).symm.trans h
      exact inv_setPc hpop (by omega)
  | seImm _ _ | sneImm _ _ | seReg _ _ _ | sneReg _ _ _ | skp _ | sknp _ => cases h; exact inv_skipIf hs hhigh _
  | ldVxK x =>
    cases hkey : s.pressedKey with
    | none =>
      cases (exec_ldVxK_none hkey x).symm.trans h
      have hle : 2#16 ≤ s.pc := BitVec.le_def.2 hlow
      exact inv_setPc hs (by rw [BitVec.toNat_sub_of_le hle]; omega)
    | some k => cases (exec_ldVxK_some hkey x).symm.trans h; exact hs
  | addI x =>
    rcases Nat.lt_or_ge 0xFFFF (s.i.toNat + (s.v x).toNat) with hsum | hsum
    · cases (exec_addI_raised hsum).symm.trans h; exact hs
    · cases (exec_addI_exact hsum).symm.trans h; exact hs
  | drw x y n =>
    refine inv_outcome (inv_forEach (fun row u hu => ?_) _ (s := s.setV vf 0x00#8) hs) h
    refine inv_readInto hu (fun b => ?_) _
    exact inv_drawRow _ _ b hu
  | ldBcd x =>
    refine inv_outcome (inv_andThen (inv_andThen ?_ fun u hu => ?_) fun u hu => ?_) h
    · exact inv_memWrite hs _ _
    · exact inv_memWrite hu _ _
    · exact inv_memWrite hu _ _
  | ldMemVx x =>
    refine inv_outcome (inv_andThen (inv_forEach (fun k u hu => ?_) _ hs) fun u hu => ?_) h
    · exact inv_memWrite hu _ _
    · exact hu
  | ldVxMem x =>
    refine inv_outcome (inv_andThen (inv_forEach (fun k u hu => ?_) _ hs) fun u hu => ?_) h
    · exact inv_readInto hu (k := fun b v => .done (v.setV (regOf k) b)) (fun _ => hu) _
    · exact hu
  | cls | ldImm _ _ | addImm _ _ | ldReg _ _ | orReg _ _ | andReg _ _ | xorReg _ _ | addReg _ _ | sub _ _ | shr _ _
  | subn _ _ | shl _ _ | ldI _ | rnd _ _ | ldVxDt _ | ldDtVx _ | ldStVx _ | ldF _ => cases h; exact hs

/-! ### Each transition keeps it -/

theorem inv_advancePc {s : State} (hs : s.inv = true) (hpc : s.pc.toNat ≤ 0xFFE) : s.advancePc.inv = true :=
  inv_setPc hs (by rw [← advancePc_pc, advancePc_toNat hpc]; omega)

theorem executorStep_inv {s t : State} (hs : s.inv = true) (h : executorStep s = .next t) : t.inv = true := by
  rcases executorStep_cases h with ⟨-, rfl⟩ | ⟨-, e, rfl⟩ | ⟨-, hpc, hadvanced⟩
  · exact hs
  · exact hs
  · have hinv : s.advancePc.inv = true := inv_advancePc hs hpc
    have hnat : s.advancePc.pc.toNat = s.pc.toNat + 2 := advancePc_toNat hpc
    rcases hadvanced with rfl | ⟨e, rfl⟩ | ⟨i, hi⟩
    · exact hinv
    · exact hinv
    · exact exec_inv hinv (by omega) (by omega) hi

theorem inv_load {s : State} {program : List Byte} (h : program.length ≤ maxProgram) : (s.load program).inv = true := by
  have hpc : (0x0200#16).toNat ≤ 0x10FE := by decide
  exact (inv_iff _).2 ⟨load_wf s h, hpc, nofun, (stackBounded_eq_true_iff _).2 fun n _ => Nat.zero_le n⟩

/-- Settles O53: after the fetch increment pc is between 2 and 0x1000, from where every instruction keeps the invariant; a
load establishes it, and the other events write nothing it reads. -/
theorem stepKeepsTheInvariant : Obligations.StepKeepsTheInvariant := by
  intro s t hs h
  rcases step_cases h with ⟨-, hexec⟩ | ⟨event, -, hevent⟩
  · exact executorStep_inv (s := s.dropTurn) hs hexec
  · rcases perform_cases hevent with ⟨-, rfl⟩ | ⟨program, -, hfit, rfl⟩ | ⟨-, dt, st, key, dirty, rfl⟩
    · exact hs
    · exact inv_load hfit
    · exact hs

/-- Settles O52, by running the invariant on the reset state. -/
theorem resetMeetsTheInvariant : Obligations.ResetMeetsTheInvariant := by
  unfold Obligations.ResetMeetsTheInvariant
  decide

end Sys2Proof.Machine
end

section
/-! Single steps: the executor's turn as the claims read it, the timers, and the host's calls
(spec/40_execution_cycle.md, spec/60_exceptions.md, spec/70_reset_and_hazards.md). -/

namespace Sys2Proof.Machine

/-! ### The executor's turn -/

/-- The fetch increment as a sum of numbers. -/
theorem advancePc_eq (s : State) : s.advancePc = { s with pc := BitVec.ofNat 16 (s.pc.toNat + 2) } := by
  have hsum : s.pc + 2#16 = BitVec.ofNat 16 (s.pc.toNat + 2) := by
    rw [BitVec.ofNat_add, BitVec.ofNat_toNat, BitVec.setWidth_eq]
  rw [State.advancePc, State.setPc, hsum]

theorem step_running {s : State} (hturn : s.turn = none) (hs : s.status = .running) (hpc : s.pc.toNat ≤ 0xFFE) :
    step s = runDecoded (decode s.params.decode s.opcodeAtPc) s.opcodeAtPc s.dropTurn.advancePc :=
  (step_executor hturn).trans (executorStep_running (s := s.dropTurn) hs hpc)

/-- A step of the executor is the execute phase of the instruction at pc. -/
theorem step_of_decode {s : State} {i : Instr} (hturn : s.turn = none) (hs : s.status = .running)
    (hpc : s.pc.toNat ≤ 0xFFE) (hdecode : decode s.params.decode s.opcodeAtPc = .instr i) :
    step s = exec i s.dropTurn.advancePc := by
  rw [step_running hturn hs hpc, hdecode, runDecoded]

/-- Under NOP a word of families 5 and 9 with a low nibble other than 0 has no effect (rule R98). -/
theorem decode_eq_noOp {d : DecodeParams} {op : Word} (hd : d.lowNib59 = .nop) (ht : opT op ∈ [0x5#4, 0x9#4])
    (hn : opN op ≠ 0#4) : decode d op = .noOp := by
  have hlow (i : Instr) : decodeLowNib d (opN op) i = .noOp := by simp only [decodeLowNib, hd, if_neg hn]
  simp only [List.mem_cons, List.not_mem_nil, or_false] at ht
  rcases ht with ht | ht
  · obtain ⟨x, y, n, rfl⟩ := exists_formatRR ht
    rw [decode_family5, ← opN_formatRR 0x5#4 x y n]
    exact hlow _
  · obtain ⟨x, y, n, rfl⟩ := exists_formatRR ht
    rw [decode_family9, ← opN_formatRR 0x9#4 x y n]
    exact hlow _

/-- The fetch increment writes pc alone. -/
theorem advancePc_unchanged {w : Writes} (hpc : w.pc = true) (s : State) : Unchanged w s s.advancePc :=
  setPc_unchanged hpc s _

/-- Settles O7: the state with pc advanced by 2 is the one the fetch increment leaves. -/
theorem stepRunsTheDecodedInstruction : Obligations.StepRunsTheDecodedInstruction := by
  intro s i hturn hs hpc hdecode
  rw [step_of_decode hturn hs hpc hdecode, advancePc_eq s.dropTurn]
  rfl

/-- Settles O8: the fetch raises before pc is advanced, so the error taken is all that changes. -/
theorem fetchOutsideMemoryFaults : Obligations.FetchOutsideMemoryFaults := by
  intro s hturn hs hpc
  exact ⟨_, (step_executor hturn).trans (executorStep_fetch_error (s := s.dropTurn) hs (Nat.not_le.2 hpc)),
    takeError_tookError _ s.dropTurn⟩

/-- Settles O9: the error is taken after the fetch increment. -/
theorem unhandledOpcodeFaults : Obligations.UnhandledOpcodeFaults := by
  intro s hturn hs hpc hdecode
  have hstep := step_running hturn hs hpc
  rw [hdecode, runDecoded] at hstep
  exact ⟨_, hstep, takeError_status _ _, advancePc_toNat (s := s.dropTurn) hpc,
    (advancePc_unchanged rfl _).trans (takeError_unchanged rfl _ _)⟩

/-- Settles O10: such a word decodes to the NOP, whose step is the fetch increment. -/
theorem nopWordOnlyAdvancesPc : Obligations.NopWordOnlyAdvancesPc := by
  intro s hturn hs hpc hnop ht hn
  have hstep := step_running hturn hs hpc
  rw [decode_eq_noOp hnop ht hn, runDecoded] at hstep
  exact ⟨_, hstep, advancePc_toNat (s := s.dropTurn) hpc, advancePc_unchanged rfl _⟩

/-- Settles O11: a call of step() in FAULTED leaves the state alone, and what it returns is read from the status. -/
theorem faultedStepChangesNothing : Obligations.FaultedStepChangesNothing := by
  intro s e hturn hs
  refine ⟨(step_executor hturn).trans (executorStep_faulted (s := s.dropTurn) hs), ?_⟩
  rw [State.stepResult, dropTurn_status, hs]

theorem afterReset_unreset {s : State} (hs : s.status = .unreset) (answer : Reply × State) :
    afterReset s answer = .refused .calledBeforeReset := by
  simp only [afterReset, hs]

/-- Settles O12: the executor and the two ports that need a reset machine read the status first. -/
theorem callsBeforeResetAreRefused : Obligations.CallsBeforeResetAreRefused := by
  intro s hs
  refine ⟨fun hturn => ?_, fun x y hturn => ?_, fun hturn => ?_⟩
  · exact (step_executor hturn).trans (executorStep_unreset (s := s.dropTurn) hs)
  · rw [step_event hturn, perform, afterReset_unreset (s := s.dropTurn) hs, eventState]
  · rw [step_event hturn, perform, afterReset_unreset (s := s.dropTurn) hs, eventState]

/-! ### The timers -/

theorem toNat_tickValue {t : Byte} (ht : t ≠ 0#8) (policy : TimerZeroPolicy) (restart : Byte) :
    (tickValue policy restart t).toNat = t.toNat - 1 := by
  have hpos : 0x01#8 ≤ t := BitVec.le_def.2 (Nat.one_le_iff_ne_zero.2 fun h => ht (BitVec.eq_of_toNat_eq h))
  unfold tickValue
  rw [if_neg ht, BitVec.toNat_sub_of_le hpos]
  rfl

theorem tickValue_restart (restart : Byte) : tickValue .restart restart 0#8 = restart := rfl

theorem tickValue_hold (restart : Byte) : tickValue .hold restart 0#8 = 0#8 := rfl

theorem step_delayTick {s : State} (hturn : s.turn = some .delayTick) : step s = .next (delayTick s.dropTurn) :=
  step_event hturn

theorem step_soundTick {s : State} (hturn : s.turn = some .soundTick) : step s = .next (soundTick s.dropTurn) :=
  step_event hturn

theorem delayTick_dt_of_ne_zero {s : State} (hs : s.status ≠ .unreset) (h : s.dt ≠ 0#8) :
    (delayTick s).dt.toNat = s.dt.toNat - 1 := by
  rw [delayTick_inSession hs, setDt_dt, toNat_tickValue h]

theorem soundTick_st_of_ne_zero {s : State} (hs : s.status ≠ .unreset) (h : s.st ≠ 0#8) :
    (soundTick s).st.toNat = s.st.toNat - 1 := by
  rw [soundTick_inSession hs, setSt_st, toNat_tickValue h]

theorem delayTick_dt_of_zero {s : State} (hs : s.status ≠ .unreset) (h : s.dt = 0#8) :
    (delayTick s).dt = tickValue s.params.timerZero s.params.restartDT 0#8 := by
  rw [delayTick_inSession hs, setDt_dt, h]

theorem soundTick_st_of_zero {s : State} (hs : s.status ≠ .unreset) (h : s.st = 0#8) :
    (soundTick s).st = tickValue s.params.timerZero s.params.restartST 0#8 := by
  rw [soundTick_inSession hs, setSt_st, h]

theorem delayTick_unchanged (s : State) : Unchanged { dt := true } s (delayTick s) := by
  obtain ⟨b, hb⟩ := delayTick_eq s
  rw [hb]
  exact setDt_unchanged rfl s b

theorem soundTick_unchanged (s : State) : Unchanged { st := true } s (soundTick s) := by
  obtain ⟨b, hb⟩ := soundTick_eq s
  rw [hb]
  exact setSt_unchanged rfl s b

/-- Settles O44: both timers count by tickValue in every status but UNRESET, where a tick is no transition of a timer. -/
theorem ticksCountDown : Obligations.TicksCountDown := by
  intro s
  refine ⟨fun hturn => ⟨_, step_delayTick hturn, delayTick_unchanged _, fun hs => ?_,
      delayTick_dt_of_ne_zero (s := s.dropTurn), fun hs hzero hpolicy => ?_, fun hs hzero hpolicy => ?_⟩,
    fun hturn => ⟨_, step_soundTick hturn, soundTick_unchanged _, fun hs => ?_,
      soundTick_st_of_ne_zero (s := s.dropTurn), fun hs hzero hpolicy => ?_, fun hs hzero hpolicy => ?_⟩⟩
  · rw [delayTick_unreset (s := s.dropTurn) hs, dropTurn_dt]
  · rw [delayTick_dt_of_zero (s := s.dropTurn) hs hzero, dropTurn_params, hpolicy, tickValue_restart]
  · rw [delayTick_dt_of_zero (s := s.dropTurn) hs hzero, dropTurn_params, hpolicy, tickValue_hold]
  · rw [soundTick_unreset (s := s.dropTurn) hs, dropTurn_st]
  · rw [soundTick_st_of_zero (s := s.dropTurn) hs hzero, dropTurn_params, hpolicy, tickValue_restart]
  · rw [soundTick_st_of_zero (s := s.dropTurn) hs hzero, dropTurn_params, hpolicy, tickValue_hold]

/-! ### The host's calls -/

/-- Settles O48: each port compares its indices before it does anything, read_pixel the column first. -/
theorem hostIndexErrors : Obligations.HostIndexErrors := by
  intro s x y k
  refine ⟨fun hk => ⟨?_, ?_⟩, fun hs hx => ?_, fun hs hx hy => ?_⟩
  · rw [perform, setKeyPressed, if_neg (Nat.not_lt.2 hk), indexError]
  · rw [perform, setKeyReleased, if_neg (Nat.not_lt.2 hk), indexError]
  · rw [perform_readPixel hs, readPixel, if_pos hx, indexError]
  · rw [perform_readPixel hs, readPixel, if_neg (Nat.not_le.2 hx), if_pos hy, indexError]

/-- With one key pressed `pressed_key()` returns it. -/
theorem pressedKey_pressKey {s : State} (hkey : s.key = 0#16) {k : Nat} (hk : k < 16) :
    (s.pressKey k).pressedKey = some (BitVec.ofNat 8 k) := by
  have hnat : (BitVec.ofNat 8 k).toNat = k := toNat_ofNat_of_key hk
  rw [pressedKey_eq_some_iff, hnat]
  refine ⟨hk, by rw [pressKey_getLsbD hk, if_pos rfl], fun j hj => ?_⟩
  rw [pressKey_getLsbD hk, if_neg (Nat.ne_of_lt hj), hkey, BitVec.getLsbD_zero]

/-- Settles O46: the host's turn presses the one key, and the executor's turn after it finds that key. -/
theorem keyPressEndsTheWait : Obligations.KeyPressEndsTheWait := by
  intro s x k hs hturn hnext hk hkey hpc hop
  have hpress : step s = .next (s.dropTurn.pressKey k) := by
    rw [step_event hturn, perform_setKeyPressed hk, eventState]
  have hdecode : decode s.params.decode s.opcodeAtPc = .instr (.ldVxK x) := by
    rw [hop]
    exact decode_familyF s.params.decode x 0x0A#8
  have hpressed : ((s.dropTurn.pressKey k).dropTurn.advancePc).pressedKey = some (BitVec.ofNat 8 k) :=
    pressedKey_pressKey (s := s.dropTurn) hkey hk
  have hwait : step (s.dropTurn.pressKey k)
      = .next ((s.dropTurn.pressKey k).dropTurn.advancePc.setV x (BitVec.ofNat 8 k)) :=
    (step_of_decode (s := s.dropTurn.pressKey k) hnext hs hpc hdecode).trans (exec_ldVxK_some hpressed x)
  refine ⟨_, _, hpress, hwait, ?_, advancePc_toNat (s := (s.dropTurn.pressKey k).dropTurn) hpc,
    pressKey_unchanged rfl _ k, (advancePc_unchanged rfl _).trans (setV_unchanged (by simp) _ _)⟩
  rw [(setV_spec _ x _).1, toNat_ofNat_of_key hk]

/-! ### Reset -/

/-- After a load an address reads as the program's byte there, or as what reset leaves in it. -/
theorem load_byteAt (s : State) (program : List Byte) (a : Nat) :
    (s.load program).byteAt a
      = if h : 0x200 ≤ a ∧ a < 0x200 + program.length then program[a - 0x200]'(by omega) else s.params.unlisted a :=
  Memory.read_writeBytes s.params.unlisted 0x200 a program []

theorem load_byteAt_program (s : State) (program : List Byte) {k : Nat} (hk : k < program.length) :
    (s.load program).byteAt (0x200 + k) = program[k] := by
  rw [load_byteAt, dif_pos ⟨Nat.le_add_right _ _, Nat.add_lt_add_left hk _⟩]
  simp only [Nat.add_sub_cancel_left]

theorem load_byteAt_outside (s : State) {program : List Byte} {a : Nat} (ha : a < 0x200 ∨ 0x200 + program.length ≤ a) :
    (s.load program).byteAt a = s.params.unlisted a := by
  rw [load_byteAt, dif_neg (by omega)]

/-- Rule R6: the font table has five bytes for each glyph and ends at or below 0x200. -/
theorem fontData_length_of_wf {p : Params} (hwf : p.wf = true) :
    p.fontData.length = 5 * p.fontGlyphs ∧ p.fontBase + 5 * p.fontGlyphs ≤ 0x200 := by
  simp only [Params.wf, Bool.and_eq_true, decide_eq_true_eq] at hwf
  obtain ⟨⟨-, hlength⟩, hbelow⟩ := hwf
  exact ⟨hlength, hbelow⟩

theorem unlisted_font {p : Params} (hwf : p.wf = true) {k : Nat} (hk : k < p.fontData.length) :
    p.unlisted (p.fontBase + k) = p.fontData[k] := by
  obtain ⟨hlength, -⟩ := fontData_length_of_wf hwf
  rw [Params.unlisted, if_pos (by omega), Nat.add_sub_cancel_left, List.getD_eq_getElem?_getD,
    List.getElem?_eq_getElem hk, Option.getD_some]

theorem unlisted_residue {p : Params} (hwf : p.wf = true) {a : Nat}
    (ha : a < p.fontBase ∨ p.fontBase + p.fontData.length ≤ a) : p.unlisted a = residueByte a p.residue := by
  obtain ⟨hlength, -⟩ := fontData_length_of_wf hwf
  rw [Params.unlisted, if_neg (by omega)]

theorem load_v (s : State) (program : List Byte) (r : RegIx) : (s.load program).v r = 0#8 := by
  simp [State.v, State.load]

theorem load_pixel (s : State) (program : List Byte) (x y : Nat) : (s.load program).pixel x y = false :=
  clearPixels_pixel s x y

/-- Settles O49: every register field is set by the load, and memory is read as the program over what reset leaves, the
font table being wholly below the program. -/
theorem resetLoadsTheProgram : Obligations.ResetLoadsTheProgram := by
  intro s program hfit hwf
  refine ⟨_, perform_reset_fits hfit s, load_v s program, rfl, rfl, rfl, rfl, rfl, load_pixel s program, rfl, rfl, rfl, rfl,
    fun k hk => load_byteAt_program s program hk, fun k hk => ?_, fun a hfont hprogram => ?_⟩
  · obtain ⟨hlength, hbelow⟩ := fontData_length_of_wf hwf
    rw [load_byteAt_outside s (.inl (by omega)), unlisted_font hwf hk]
  · rw [load_byteAt_outside s hprogram, unlisted_residue hwf hfont]

theorem withStatus_unchanged {w : Writes} (hstatus : w.status = true) (s : State) (status : Status) :
    Unchanged w s { s with status := status } := by
  simp [Unchanged, hstatus, State.v, State.pixel, State.byteAt]

/-- Settles O50: a missing image writes the status alone, and a longer program meets no arm that loads. -/
theorem resetThatFails : Obligations.ResetThatFails := by
  intro s
  exact ⟨⟨_, rfl, rfl, withStatus_unchanged rfl s .unreset⟩, fun program hlong => perform_reset_tooLong hlong s⟩

/-- Settles O51: the reset state read field by field, its registers and pixels at every index. -/
theorem resetState : Obligations.ResetState :=
  ⟨load_v State.reset [], rfl, rfl, rfl, clearPixels_pixel State.reset, rfl, rfl, rfl, rfl, rfl⟩

/-! ### Memory -/

/-- Settles O59: an access up to 0xFFF is made and read back, and above it there is none. -/
theorem readAfterWrite : Obligations.ReadAfterWrite := by
  intro a b s
  refine ⟨fun ha => ⟨_, memWrite_done ha, ?_, fun c hc => ?_⟩, fun ha => ?_⟩
  · rw [memRead_ok ha, putByte_byteAt, if_pos rfl]
  · simp only [memRead, putByte_byteAt, if_neg hc]
  · exact ⟨memWrite_raised (Nat.not_le.2 ha), memRead_error (Nat.not_le.2 ha)⟩

end Sys2Proof.Machine
end

section
/-! Subroutines, draws, sums into I and skips on a key (spec/41, 43, 44 and 46). -/

namespace Sys2Proof.Machine

/-- Settles O16: CALL leaves its own return address on top, and RET takes it from a stack handed back as it was. -/
theorem subroutineReturnsAfterItsCall : Obligations.SubroutineReturnsAfterItsCall := by
  intro nnn s t u hfull hcall hstack
  cases (exec_call_done hfull nnn).symm.trans hcall
  exact ⟨_, exec_ret_cons hstack, rfl, rfl, setPc_withStack_unchanged u s.stack s.pc⟩

/-- Settles O28: the draw is counted, then one write of V[X] with the masked byte. -/
theorem rndMasksTheDraw : Obligations.RndMasksTheDraw := by
  intro d x nn s
  refine ⟨decode_rnd d x nn, _, exec_rnd x nn s, fun k => ?_, rfl,
    (countDraw_unchanged rfl s).trans (setV_unchanged (by simp) _ _)⟩
  rw [(setV_spec _ x _).1, BitVec.getLsbD_and, State.drawByte]

/-- Settles O30, by cases on whether the exact sum fits into 16 bits. -/
theorem addIIsExactOrFaults : Obligations.AddIIsExactOrFaults := by
  intro d x s
  refine ⟨decode_familyF d x 0x1E#8, fun hfit => ?_, fun hsum => ?_⟩
  · exact ⟨_, exec_addI_exact hfit, Nat.mod_eq_of_lt (Nat.lt_succ_of_le hfit), setI_unchanged rfl s _⟩
  · exact ⟨_, exec_addI_raised hsum, takeError_tookError _ s⟩

/-- The lowest pressed key is V[X]: a bit of KEY above 15 is never set, so V[X] needs no bound of its own. -/
theorem pressedKey_eq_v_iff (s : State) (x : RegIx) : s.pressedKey = some (s.v x) ↔
    s.key.getLsbD (s.v x).toNat = true ∧ ∀ j, j < (s.v x).toNat → s.key.getLsbD j = false := by
  rw [pressedKey_eq_some_iff]
  exact ⟨fun ⟨_, h⟩ => h, fun h => ⟨BitVec.lt_of_getLsbD h.1, h⟩⟩

/-- Settles O41, by cases on whether the lowest pressed key is V[X]: SKP skips on it and SKNP on its complement. -/
theorem keySkipsCompareTheLowestKey : Obligations.KeySkipsCompareTheLowestKey := by
  intro d x s
  refine ⟨decode_familyE d x 0x9E#8, decode_familyE d x 0xA1#8, _, _, exec_skp x s, exec_sknp x s, ?_, ?_,
    skipIf_unchanged rfl s _, skipIf_unchanged rfl s _⟩
  · rw [← pressedKey_eq_v_iff]
    intro hkey
    simp only [skipIf_pc, hkey, BEq.rfl, bne_self_eq_false, if_true, Bool.false_eq_true, if_false, and_self]
  · rw [← pressedKey_eq_v_iff]
    intro hkey
    simp only [skipIf_pc, beq_eq_false_iff_ne.2 hkey, bne_iff_ne.2 hkey, if_true, Bool.false_eq_true, if_false, and_self]

end Sys2Proof.Machine
end

section
/-! The loops over data memory: LD B, LD [I], LD from [I] and DRW, which stop at the first address above 0xFFF
(spec/44_index_memory.md, spec/45_display.md). -/

namespace Sys2Proof.Machine

/-! ### Loops of accesses at I, I+1 and so on -/

/-- Pass `k` of the loop makes one access at `s.dataAddr k` and leaves what `g` says, or raises there. -/
def AccessPass (s : State) (f : Nat → State → Effect) (g : State → Nat → State) : Prop :=
  ∀ k t, (s.dataAddr k ≤ 0xFFF → f k t = .done (g t k)) ∧
    (¬ s.dataAddr k ≤ 0xFFF → f k t = .raised (.outOfBoundsAccess (s.dataAddr k)) t)

section
variable {s : State} {f : Nat → State → Effect} {g : State → Nat → State}

theorem forEach_accesses_done (hf : AccessPass s f g) {n : Nat} (hin : ∀ k, k < n → s.dataAddr k ≤ 0xFFF) (t : State) :
    Effect.forEach f (List.range n) t = .done ((List.range n).foldl g t) :=
  forEach_done (fun k hk u => (hf k u).1 (hin k (List.mem_range.1 hk))) t

/-- The first address above 0xFFF ends the loop, with the passes before it made. -/
theorem forEach_accesses_raised (hf : AccessPass s f g) {k n : Nat} (hk : k < n) (hout : 0xFFF < s.dataAddr k)
    (hin : ∀ j, j < k → s.dataAddr j ≤ 0xFFF) (t : State) :
    Effect.forEach f (List.range n) t = .raised (.outOfBoundsAccess (s.dataAddr k)) ((List.range k).foldl g t) := by
  obtain ⟨rest, hsplit⟩ := range_split hk
  rw [hsplit]
  exact forEach_raised (fun j hj u => (hf j u).1 (hin j (List.mem_range.1 hj)))
    (fun u => (hf k u).2 (Nat.not_le.2 hout)) t

end

theorem dataAddr_le {s : State} {k n : Nat} (hk : k ≤ n) (hn : s.dataAddr n ≤ 0xFFF) : s.dataAddr k ≤ 0xFFF :=
  Nat.le_trans (Nat.add_le_add_left hk _) hn

theorem putByte_unchanged {w : Writes} {a : Nat} (ha : a ∈ w.mem) (s : State) (b : Byte) :
    Unchanged w s (s.putByte a b) := by
  have hbyte : ∀ c, c ∉ w.mem → (s.putByte a b).byteAt c = s.byteAt c := fun c hc => by
    rw [putByte_byteAt, if_neg (ne_of_mem_of_not_mem ha hc).symm]
  simpa [Unchanged] using hbyte

/-- A frame still holds when I may change too. -/
theorem Unchanged.allowI {w : Writes} {s t : State} (h : Unchanged w s t) : Unchanged { w with i := true } s t := by
  simp only [Unchanged] at h ⊢
  simp_all

/-- An error taken after a loop adds the status to what the loop may write. -/
theorem Unchanged.takeError {w : Writes} {s t : State} (h : Unchanged w s t) (e : Error) :
    Unchanged { w with status := true } s (takeError e t) :=
  h.allowStatus.trans (takeError_unchanged rfl e t)

/-! ### LD B, Vx -/

/-- The digit bytes of LD B, Vx by their offset from I. -/
def digitByte (b : Byte) (k : Nat) : Byte := if k = 0 then hundreds b else if k = 1 then tens b else units b

theorem toNat_digitByte (b : Byte) (k : Nat) : (digitByte b k).toNat = bcdDigit b k := by
  obtain ⟨hhundreds, htens, hunits⟩ := digits_toNat b
  by_cases hzero : k = 0
  · subst hzero; exact hhundreds
  · by_cases hone : k = 1
    · subst hone; exact htens
    · unfold digitByte bcdDigit
      rw [if_neg hzero, if_neg hone, if_neg hzero, if_neg hone]
      exact hunits

/-- One pass of FX33. -/
def digitPass (s : State) (b : Byte) (t : State) (k : Nat) : State := t.putByte (s.dataAddr k) (digitByte b k)

/-- What each pass of a loop leaves alone, the whole loop does. -/
theorem foldl_unchanged {w : Writes} {g : State → Nat → State} {l : List Nat}
    (hg : ∀ k ∈ l, ∀ t, Unchanged w t (g t k)) (s : State) : Unchanged w s (l.foldl g s) := by
  induction l generalizing s with
  | nil => exact Unchanged.refl w s
  | cons k l ih => exact (hg k (by simp) s).trans (ih (fun j hj => hg j (by simp [hj])) _)

theorem digitPass_unchanged (s : State) (b : Byte) (n : Nat) :
    Unchanged { mem := (List.range n).map s.dataAddr } s ((List.range n).foldl (digitPass s b) s) :=
  foldl_unchanged (fun _ hk t => putByte_unchanged (List.mem_map_of_mem hk) t _) s

theorem dataAddr_inj (s : State) {j k : Nat} : s.dataAddr j = s.dataAddr k ↔ j = k := Nat.add_left_cancel_iff

/-- What `n` passes of FX33 store. -/
theorem digitPass_byteAt (s : State) (b : Byte) {k n : Nat} (hk : k < n) :
    ((List.range n).foldl (digitPass s b) s).byteAt (s.dataAddr k) = digitByte b k := by
  induction n with
  | zero => exact absurd hk (Nat.not_lt_zero k)
  | succ n ih =>
    rw [List.range_succ, List.foldl_append, List.foldl_cons, List.foldl_nil, digitPass, putByte_byteAt]
    by_cases hlast : k = n
    · rw [if_pos (congrArg s.dataAddr hlast), hlast]
    · rw [if_neg (mt (dataAddr_inj s).1 hlast), ih (by omega)]

theorem forEach_singleton {α : Type} (f : α → State → Effect) (a : α) : Effect.forEach f [a] = f a := by
  funext s
  rw [forEach_cons]
  cases f a s <;> rfl

/-- The three writes of FX33 as a loop over their offsets. -/
theorem exec_ldBcd_loop (x : RegIx) (s : State) : exec (.ldBcd x) s
    = (Effect.forEach (fun k => memWrite (s.dataAddr k) (digitByte (s.v x) k)) (List.range 3) s).outcome := by
  rw [exec_ldBcd, show List.range 3 = [0] ++ [1] ++ [2] from rfl, forEach_append, forEach_append, forEach_singleton,
    forEach_singleton, forEach_singleton]
  rfl

theorem accessPass_digit (s : State) (b : Byte) :
    AccessPass s (fun k => memWrite (s.dataAddr k) (digitByte b k)) (digitPass s b) :=
  fun _ _ => ⟨memWrite_done, memWrite_raised⟩

/-- Settles O32: the loop of three writes ends or stops at its first address above 0xFFF, and the digits written by then
are read back. -/
theorem ldBcdStoresThreeDigits : Obligations.LdBcdStoresThreeDigits := by
  intro d x s
  have hpass := accessPass_digit s (s.v x)
  have hbytes {k n : Nat} (hk : k < n) := (congrArg BitVec.toNat (digitPass_byteAt s (s.v x) hk)).trans
    (toNat_digitByte (s.v x) k)
  refine ⟨decode_familyF d x 0x33#8, fun hall => ?_, fun k hk hout hin => ?_⟩
  · have hin (k : Nat) (hk : k < 3) : s.dataAddr k ≤ 0xFFF := dataAddr_le (Nat.le_of_lt_succ hk) hall
    refine ⟨_, (exec_ldBcd_loop x s).trans (by rw [forEach_accesses_done hpass hin, done_outcome]), fun k => hbytes, ?_⟩
    exact digitPass_unchanged s (s.v x) 3
  · refine ⟨_, (exec_ldBcd_loop x s).trans (by rw [forEach_accesses_raised hpass hk hout hin, raised_outcome]),
      takeError_status _ _, fun j => hbytes, ?_⟩
    exact (digitPass_unchanged s (s.v x) k).takeError _

/-! ### LD [I], Vx -/

theorem accessPass_store (s : State) :
    AccessPass s (fun k t => memWrite (s.dataAddr k) (t.v (regOf k)) t) (storePass s) :=
  fun _ _ => ⟨memWrite_done, memWrite_raised⟩

theorem exec_ldMemVx_done {x : RegIx} {s : State} (h : s.dataAddr x.toNat ≤ 0xFFF) : exec (.ldMemVx x) s
    = .next (((List.range (x.toNat + 1)).foldl (storePass s) s).setI (indexAfter s.i x)) := by
  have hin (k : Nat) (hk : k < x.toNat + 1) : s.dataAddr k ≤ 0xFFF := dataAddr_le (Nat.le_of_lt_succ hk) h
  rw [exec_ldMemVx, forEach_accesses_done (accessPass_store s) hin, done_andThen, done_outcome]

/-- Settles O33, by what the passes of the loop store, over all of them or over those before the first address above
0xFFF; I is written after the loop only. -/
theorem ldMemVxStoresTheRegisters : Obligations.LdMemVxStoresTheRegisters := by
  intro d x s
  refine ⟨decode_familyF d x 0x55#8, fun hall => ?_, fun k hk hout hin => ?_⟩
  · obtain ⟨hbytes, hframe⟩ := store_passes s (x.toNat + 1)
    refine ⟨_, exec_ldMemVx_done hall, fun k hk => hbytes k (Nat.lt_succ_of_le hk), indexAfter_toNat s x hall, ?_⟩
    exact hframe.allowI.trans (setI_unchanged rfl _ _)
  · obtain ⟨hbytes, hframe⟩ := store_passes s k
    have hstop : exec (.ldMemVx x) s
        = .next (takeError (.outOfBoundsAccess (s.dataAddr k)) ((List.range k).foldl (storePass s) s)) := by
      rw [exec_ldMemVx, forEach_accesses_raised (accessPass_store s) (Nat.lt_succ_of_le hk) hout hin, raised_andThen,
        raised_outcome]
    exact ⟨_, hstop, takeError_status _ _, hbytes, hframe.takeError _⟩

/-- Settles O35: the frame of the stores keeps pc, and the two bytes there are the ones passes k and k + 1 stored. -/
theorem storeIsSeenByTheNextFetch : Obligations.StoreIsSeenByTheNextFetch := by
  intro x k s t hk hall hpc h
  cases (exec_ldMemVx_done hall).symm.trans h
  obtain ⟨hbytes, -, -, hkeepsPc, -⟩ := store_passes s (x.toNat + 1)
  generalize (List.range (x.toNat + 1)).foldl (storePass s) s = u at hbytes hkeepsPc ⊢
  have hpc' : u.pc.toNat = s.dataAddr k := (congrArg BitVec.toNat (hkeepsPc rfl)).trans hpc
  have hfits : s.dataAddr (k + 1) ≤ 0xFFF := dataAddr_le hk hall
  have hopcode : u.opcodeAtPc = s.v (regOf k) ++ s.v (regOf (k + 1)) := by
    rw [State.opcodeAtPc, hpc', hbytes k (by omega)]
    exact congrArg _ (hbytes (k + 1) (by omega))
  refine (fetch_ok ?_).trans (congrArg _ hopcode)
  rw [setI_pc, hpc']
  exact Nat.le_of_succ_le_succ hfits

/-! ### LD Vx, [I] -/

theorem accessPass_load (s : State) :
    AccessPass s (fun k => readInto (s.dataAddr k) fun b t => .done (t.setV (regOf k) b)) (loadPass s) :=
  fun _ _ => ⟨readInto_ok, readInto_error⟩

/-- Settles O34, by what the passes of the loop load, over all of them or over those before the first address above 0xFFF;
I is written after the loop only. -/
theorem ldVxMemLoadsTheRegisters : Obligations.LdVxMemLoadsTheRegisters := by
  intro d x s
  have hx := x.isLt
  refine ⟨decode_familyF d x 0x65#8, fun hall => ?_, fun k hk hout hin => ?_⟩
  · obtain ⟨hregs, hframe⟩ := load_passes s (x.toNat + 1) hx
    have hdone : exec (.ldVxMem x) s
        = .next (((List.range (x.toNat + 1)).foldl (loadPass s) s).setI (indexAfter s.i x)) := by
      rw [exec_ldVxMem, forEach_accesses_done (accessPass_load s) (fun k hk => dataAddr_le (Nat.le_of_lt_succ hk) hall),
        done_andThen, done_outcome]
    refine ⟨_, hdone, fun k hk => hregs k (Nat.lt_succ_of_le hk), indexAfter_toNat s x hall, ?_⟩
    exact hframe.allowI.trans (setI_unchanged rfl _ _)
  · obtain ⟨hregs, hframe⟩ := load_passes s k (by omega)
    have hstop : exec (.ldVxMem x) s
        = .next (takeError (.outOfBoundsAccess (s.dataAddr k)) ((List.range k).foldl (loadPass s) s)) := by
      rw [exec_ldVxMem, forEach_accesses_raised (accessPass_load s) (Nat.lt_succ_of_le hk) hout hin, raised_andThen,
        raised_outcome]
    exact ⟨_, hstop, takeError_status _ _, hregs, hframe.takeError _⟩

end Sys2Proof.Machine
end

section
/-! Sprites: DRW inside memory, past its end, and twice (spec/45_display.md). -/

namespace Sys2Proof.Machine

/-- What DRW makes of `s` by toggling a list of pixels in their order, VF cleared first (rule R251). -/
def Drew (l : List (Nat × Nat)) (s t : State) : Prop :=
  (∀ px py, t.pixel px py = (s.pixel px py ^^ decide (hits l px py % 2 = 1))) ∧
    (collides s l → t.v vf = 0x01#8) ∧ (¬ collides s l → t.v vf = 0x00#8) ∧
    t.dirty = (s.dirty || !l.isEmpty) ∧ Unchanged drawWrites s t

theorem drew_drawList {l : List (Nat × Nat)} (hl : InGrid l) (s : State) :
    Drew l s (drawList l (s.setV vf 0x00#8)) := by
  have hclear : (s.setV vf 0x00#8).v vf = 0x00#8 := (setV_spec s vf _).1
  obtain ⟨hset, hkeep⟩ := drawList_vf l hl (s.setV vf 0x00#8) (.inl hclear)
  exact ⟨drawList_pixel l hl _, hset, fun hnone => (hkeep hnone).trans hclear, drawList_dirty l _,
    (setV_unchanged (by simp) s _).trans (drawList_unchanged l _)⟩

/-- The rows before row `k` draw the sprite of height `k`. -/
theorem drew_rows (s : State) (x y : RegIx) (n : Nibble) :
    Drew (s.spritePixels x y n) s ((List.range n.toNat).foldl (rowStep s x y) (s.setV vf 0x00#8)) := by
  rw [rows_eq s (s.setV vf 0x00#8) x y n.toNat fun _ => rfl]
  exact drew_drawList (sprite_inGrid s x y n.toNat) s

theorem accessPass_row (s : State) (x y : RegIx) : AccessPass s
    (fun row => readInto (s.dataAddr row) fun b t => .done (drawRow (s.v x).toNat ((s.v y).toNat + row) b t))
    (rowStep s x y) :=
  fun _ _ => ⟨readInto_ok, readInto_error⟩

theorem exec_drw_drew {s : State} {n : Nibble} (hin : ∀ row, row < n.toNat → s.dataAddr row ≤ 0xFFF) (x y : RegIx) :
    ∃ t, exec (.drw x y n) s = .next t ∧ Drew (s.spritePixels x y n) s t := by
  refine ⟨_, (exec_drw x y n s).trans ?_, drew_rows s x y n⟩
  rw [forEach_accesses_done (accessPass_row s x y) hin, done_outcome]

/-- Settles O37: with every row in memory DRW toggles the sprite's pixels in their order. -/
theorem drwTogglesTheSprite : Obligations.DrwTogglesTheSprite := by
  intro d x y n s
  exact ⟨decode_drw d x y n, fun hin => exec_drw_drew hin x y⟩

/-- Settles O38: the rows before the first address above 0xFFF are a sprite of their number, and the error taken after them
adds the status. -/
theorem drwStopsAtTheEndOfMemory : Obligations.DrwStopsAtTheEndOfMemory := by
  intro x y n k s hk hout hin
  have hn := n.isLt
  have hheight : (BitVec.ofNat 4 k).toNat = k := Nat.mod_eq_of_lt (by omega)
  have hdrew := drew_rows s x y (BitVec.ofNat 4 k)
  rw [hheight] at hdrew
  obtain ⟨hpixels, hset, hclear, hdirty, hframe⟩ := hdrew
  refine ⟨_, (exec_drw x y n s).trans ?_, takeError_status _ _, hpixels, hset, hclear, hdirty, hframe.takeError _⟩
  rw [forEach_accesses_raised (accessPass_row s x y) hk hout hin, raised_outcome]

/-! ### Drawing twice -/

/-- A sprite's pixels are read from the origin, from I and from memory. -/
theorem spritePixels_eq {s t : State} {x y : RegIx} (hx : t.v x = s.v x) (hy : t.v y = s.v y) (hi : t.i = s.i)
    (hbytes : ∀ a, t.byteAt a = s.byteAt a) (n : Nibble) : t.spritePixels x y n = s.spritePixels x y n := by
  simp only [State.spritePixels, hx, hy, hi, hbytes]

theorem hits_cons_self (p : Nat × Nat) (l : List (Nat × Nat)) : hits (p :: l) p.1 p.2 = hits l p.1 p.2 + 1 := by
  rw [hits_cons, if_pos rfl]

/-- Toggles made again on what they left collide: the first of them finds its pixel set, or, where clamping brought it back
to 0 by an even number of toggles, the next toggle of the same pixel does. -/
theorem collides_of_toggled {s t : State} {l : List (Nat × Nat)}
    (ht : ∀ px py, t.pixel px py = (s.pixel px py ^^ decide (hits l px py % 2 = 1)))
    (hclear : ∀ p ∈ l, s.pixel p.1 p.2 = false) (hne : l ≠ []) : collides t l := by
  obtain ⟨p, rest, rfl⟩ := List.exists_cons_of_ne_nil hne
  have hp : t.pixel p.1 p.2 = decide (hits (p :: rest) p.1 p.2 % 2 = 1) := by
    rw [ht, hclear p List.mem_cons_self, Bool.false_xor]
  by_cases hodd : hits (p :: rest) p.1 p.2 % 2 = 1
  · exact ⟨[], p.1, p.2, rest, rfl, by rw [hp, decide_eq_true hodd]; rfl⟩
  · have hsum : hits (p :: rest) p.1 p.2 = hits rest p.1 p.2 + 1 := hits_cons_self p rest
    have hpos : 0 < hits rest p.1 p.2 := by omega
    have hagain : p ∈ rest := List.count_pos_iff.1 hpos
    obtain ⟨between, after, rfl, hbetween⟩ := List.eq_append_cons_of_mem hagain
    have honce : hits (p :: between) p.1 p.2 = 1 := by
      rw [hits_cons_self, hits, List.count_eq_zero_of_not_mem hbetween]
    exact ⟨p :: between, p.1, p.2, after, rfl, by rw [hp, honce, decide_eq_false hodd]; rfl⟩

/-- Settles O39: the second draw toggles the same list, so each pixel is flipped an even number of times in all, and on clear
pixels it collides. -/
theorem drawingTwiceRestoresThePixels : Obligations.DrawingTwiceRestoresThePixels := by
  intro x y n s t u hin ht hx hy hu
  obtain ⟨t', ht', hdrew⟩ := exec_drw_drew hin x y
  cases ht'.symm.trans ht
  obtain ⟨hpixels, -, -, -, -, hi, -, -, -, -, -, -, -, hbytes, -⟩ := hdrew
  have hi : t.i = s.i := hi rfl
  have hsprite : t.spritePixels x y n = s.spritePixels x y n :=
    spritePixels_eq hx hy hi (fun a => hbytes a List.not_mem_nil) n
  have hin' (row : Nat) (hrow : row < n.toNat) : t.dataAddr row ≤ 0xFFF := by
    rw [State.dataAddr, hi]
    exact hin row hrow
  obtain ⟨u', hu', hpixels', hset, -⟩ := exec_drw_drew hin' x y
  cases hu'.symm.trans hu
  rw [hsprite] at hpixels' hset
  refine ⟨fun px py => ?_, fun hclear hne => hset (collides_of_toggled hpixels hclear hne)⟩
  rw [hpixels', hpixels, Bool.xor_assoc, Bool.xor_self, Bool.xor_false]

end Sys2Proof.Machine
end

section
/-! The sound timer and the dirty flag are never read by an instruction (spec/10_state.md, spec/60_exceptions.md). -/

namespace Sys2Proof.Machine

/-- The state with ST and DIRTY blotted out: what two states that differ only there have in common. -/
def State.hide (s : State) : State := (s.setSt 0#8).setDirty false

/-- An effect with ST and DIRTY blotted out of the state it ends in. -/
def Effect.hide : Effect → Effect
  | .done s => .done s.hide
  | .raised e s => .raised e s.hide

/-- Writes that do not depend on ST or DIRTY, up to what they leave in ST and DIRTY themselves. -/
def Blind (f : State → Effect) : Prop := ∀ s, (f s.hide).hide = (f s).hide

/-! ### Each operation is blind -/

theorem andThen_hide {r r' : Effect} {g : State → Effect} (h : r'.hide = r.hide) (hg : Blind g) :
    (r'.andThen g).hide = (r.andThen g).hide := by
  cases r' with
  | raised e t =>
    cases r with
    | raised e' u => exact h
    | done u => cases h
  | done t =>
    cases r with
    | raised e' u => cases h
    | done u =>
      have htu : t.hide = u.hide := Effect.done.inj h
      calc (g t).hide = (g t.hide).hide := (hg t).symm
        _ = (g u.hide).hide := by rw [htu]
        _ = (g u).hide := hg u

theorem Blind.andThen {f g : State → Effect} (hf : Blind f) (hg : Blind g) : Blind fun s => (f s).andThen g :=
  fun s => andThen_hide (hf s) hg

theorem Blind.forEach {α : Type} {f : α → State → Effect} (hf : ∀ a, Blind (f a)) (l : List α) :
    Blind (Effect.forEach f l) := by
  induction l with
  | nil => exact fun s => rfl
  | cons a l ih => exact (hf a).andThen ih

theorem Blind.readInto {k : Byte → State → Effect} (hk : ∀ b, Blind (k b)) (a : Nat) :
    Blind (Machine.readInto a k) := by
  intro s
  by_cases ha : a ≤ 0xFFF
  · rw [readInto_ok ha, readInto_ok ha]; exact hk _ s
  · rw [readInto_error ha, readInto_error ha]; rfl

/-- A write whose byte does not depend on ST or DIRTY. -/
theorem Blind.memWrite {b : State → Byte} (hb : ∀ s, b s.hide = b s) (a : Nat) :
    Blind fun s => Machine.memWrite a (b s) s := by
  intro s
  by_cases ha : a ≤ 0xFFF
  · simp only [memWrite_done ha, hb]; rfl
  · simp only [memWrite_raised ha]; rfl

theorem togglePixel_hide (s : State) (x y : Nat) : s.hide.togglePixel x y = (s.togglePixel x y).hide := by
  unfold State.togglePixel
  split <;> rfl

theorem drawBit_hide (x y : Nat) (s : State) : (drawBit x y s.hide).hide = (drawBit x y s).hide := by
  unfold drawBit
  rw [show s.hide.pixel x y = s.pixel x y from rfl]
  split
  · exact congrArg (fun t => (t.setDirty true).hide) (togglePixel_hide (s.setV vf (flagByte true)) x y)
  · exact congrArg (fun t => (t.setDirty true).hide) (togglePixel_hide s x y)

theorem drawList_hide (l : List (Nat × Nat)) (s : State) : (drawList l s.hide).hide = (drawList l s).hide := by
  induction l generalizing s with
  | nil => rfl
  | cons p l ih => rw [drawList_cons, drawList_cons, ← ih, drawBit_hide, ih]

theorem drawRow_hide (x0 y : Nat) (b : Byte) (s : State) : (drawRow x0 y b s.hide).hide = (drawRow x0 y b s).hide := by
  rw [drawRow_eq, drawRow_eq, drawList_hide]

theorem skipIf_hide (c : Bool) (s : State) : (s.hide.skipIf c).hide = (s.skipIf c).hide := by
  cases c <;> rfl

/-! ### Each instruction is blind -/

/-- Both runs of an instruction answer, and their ends differ at most in ST and DIRTY. -/
def BlindExec (i : Instr) (s : State) : Prop :=
  ∃ t u, exec i s = .next t ∧ exec i s.hide = .next u ∧ u.hide = t.hide

theorem outcome_hide {r r' : Effect} (h : r'.hide = r.hide) :
    ∃ t u, r.outcome = .next t ∧ r'.outcome = .next u ∧ u.hide = t.hide := by
  cases r' with
  | done u =>
    cases r with
    | done t => exact ⟨t, u, rfl, rfl, Effect.done.inj h⟩
    | raised e t => cases h
  | raised e u =>
    cases r with
    | done t => cases h
    | raised e' t =>
      obtain ⟨rfl, hut⟩ := Effect.raised.inj h
      exact ⟨_, _, rfl, rfl, congrArg (takeError e) hut⟩

theorem blindExec_of_outcome {i : Instr} {s : State} {f : State → Effect} (hf : Blind f) (h : exec i s = (f s).outcome)
    (hhide : exec i s.hide = (f s.hide).outcome) : BlindExec i s := by
  obtain ⟨t, u, ht, hu, htu⟩ := outcome_hide (hf s)
  exact ⟨t, u, h.trans ht, hhide.trans hu, htu⟩

theorem blindExec_drw (x y : RegIx) (n : Nibble) (s : State) : BlindExec (.drw x y n) s := by
  have hrow (row : Nat) : Blind (readInto (s.dataAddr row) fun b t =>
      .done (drawRow (s.v x).toNat ((s.v y).toNat + row) b t)) := by
    refine Blind.readInto (fun b t => ?_) _
    exact congrArg Effect.done (drawRow_hide _ _ b t)
  have hloop : Blind fun t => Effect.forEach _ (List.range n.toNat) (t.setV vf 0x00#8) :=
    fun t => Blind.forEach hrow _ (t.setV vf 0x00#8)
  exact blindExec_of_outcome hloop (exec_drw x y n s) (exec_drw x y n s.hide)

theorem blindExec_ldBcd (x : RegIx) (s : State) : BlindExec (.ldBcd x) s := by
  have hloop : Blind (Effect.forEach (fun k => memWrite (s.dataAddr k) (digitByte (s.v x) k)) (List.range 3)) :=
    Blind.forEach (fun k => Blind.memWrite (fun _ => rfl) _) _
  exact blindExec_of_outcome hloop (exec_ldBcd_loop x s) (exec_ldBcd_loop x s.hide)

theorem blindExec_ldMemVx (x : RegIx) (s : State) : BlindExec (.ldMemVx x) s := by
  have hloop : Blind (Effect.forEach (fun k t => memWrite (s.dataAddr k) (t.v (regOf k)) t)
      (List.range (x.toNat + 1))) :=
    Blind.forEach (fun k => Blind.memWrite (fun _ => rfl) _) _
  have hindex : Blind fun t => .done (t.setI (indexAfter s.i x)) := fun _ => rfl
  exact blindExec_of_outcome (hloop.andThen hindex) (exec_ldMemVx x s) (exec_ldMemVx x s.hide)

theorem blindExec_ldVxMem (x : RegIx) (s : State) : BlindExec (.ldVxMem x) s := by
  have hloop : Blind (Effect.forEach (fun k => readInto (s.dataAddr k) fun b t => .done (t.setV (regOf k) b))
      (List.range (x.toNat + 1))) :=
    Blind.forEach (fun k => Blind.readInto (fun b _ => rfl) _) _
  have hindex : Blind fun t => .done (t.setI (indexAfter s.i x)) := fun _ => rfl
  exact blindExec_of_outcome (hloop.andThen hindex) (exec_ldVxMem x s) (exec_ldVxMem x s.hide)

/-- Every instruction, by cases on what it tests where it has more than one outcome. -/
theorem blindExec (i : Instr) (s : State) : BlindExec i s := by
  cases i with
  | ret =>
    cases hs : s.stack with
    | nil => exact ⟨_, _, exec_ret_nil hs, exec_ret_nil (s := s.hide) hs, rfl⟩
    | cons w rest => exact ⟨_, _, exec_ret_cons hs, exec_ret_cons (s := s.hide) hs, rfl⟩
  | call nnn =>
    cases hfull : s.stackFull with
    | false => exact ⟨_, _, exec_call_done hfull nnn, exec_call_done (s := s.hide) hfull nnn, rfl⟩
    | true => exact ⟨_, _, exec_call_overflow hfull nnn, exec_call_overflow (s := s.hide) hfull nnn, rfl⟩
  | addI x =>
    rcases Nat.lt_or_ge 0xFFFF (s.i.toNat + (s.v x).toNat) with hsum | hsum
    · exact ⟨_, _, exec_addI_raised hsum, exec_addI_raised (s := s.hide) hsum, rfl⟩
    · exact ⟨_, _, exec_addI_exact hsum, exec_addI_exact (s := s.hide) hsum, rfl⟩
  | ldVxK x =>
    cases hkey : s.pressedKey with
    | none => exact ⟨_, _, exec_ldVxK_none hkey x, exec_ldVxK_none (s := s.hide) hkey x, rfl⟩
    | some k => exact ⟨_, _, exec_ldVxK_some hkey x, exec_ldVxK_some (s := s.hide) hkey x, rfl⟩
  | drw x y n => exact blindExec_drw x y n s
  | ldBcd x => exact blindExec_ldBcd x s
  | ldMemVx x => exact blindExec_ldMemVx x s
  | ldVxMem x => exact blindExec_ldVxMem x s
  | seImm _ _ | sneImm _ _ | seReg _ _ _ | sneReg _ _ _ | skp _ | sknp _ => exact ⟨_, _, rfl, rfl, skipIf_hide _ s⟩
  | sys _ | cls | jp _ | ldImm _ _ | addImm _ _ | ldReg _ _ | orReg _ _ | andReg _ _ | xorReg _ _ | addReg _ _
  | sub _ _ | shr _ _ | subn _ _ | shl _ _ | ldI _ | jpV0 _ | rnd _ _ | ldVxDt _ | ldDtVx _ | ldStVx _ | ldF _ =>
    exact ⟨_, _, rfl, rfl, rfl⟩

/-- Settles O58: both states are the same once ST and DIRTY are blotted out, and so are the ends of their runs. -/
theorem soundTimerAndDirtyFlagAreNotRead : Obligations.SoundTimerAndDirtyFlagAreNotRead := by
  intro i s b c
  obtain ⟨t, common, ht, hcommon, hst⟩ := blindExec i s
  obtain ⟨u, common', hu, hcommon', hsu⟩ := blindExec i ((s.setSt b).setDirty c)
  have hsame : common' = common := Host.Outcome.next.inj (hcommon'.symm.trans hcommon)
  rw [hsame] at hsu
  exact ⟨t, u, ht, hu, hsu.symm.trans hst⟩

end Sys2Proof.Machine
end

section
/-! Fair runs (spec/60_exceptions.md rule R326). -/

namespace Sys2Proof.Machine

/-- The turns of the agents that never end a session: the executor, the timers and the keys. -/
def KeepsSession (t : Turn) : Prop :=
  t = .executor ∨ t = .other .delayTick ∨ t = .other .soundTick ∨
    ∃ k, t = .other (.setKeyPressed k) ∨ t = .other (.setKeyReleased k)

theorem turn_eq_of_head {s : State} {e : Event} (h : s.agenda.head = .other e) : s.turn = some e := by
  simp only [State.turn, Agenda.event, h]

theorem turn_eq_none_of_head {s : State} (h : s.agenda.head = .executor) : s.turn = none := by
  simp only [State.turn, Agenda.event, h]

/-! ### In session every such turn can be taken -/

/-- An instruction always answers, and leaves the session only for a fault. -/
theorem exec_inSession (i : Instr) {s : State} (hs : s.status ≠ .unreset) :
    ∃ t, exec i s = .next t ∧ t.status ≠ .unreset := by
  obtain ⟨t, ht, hstatus⟩ := errorsOfTheExecutePhase i s
  refine ⟨t, ht, ?_⟩
  rcases hstatus with h | ⟨-, h⟩ | ⟨_, -, h, -⟩ | ⟨_, h, -⟩ | ⟨_, _, -, h, -⟩
  · rwa [h]
  all_goals rw [h]; exact nofun

theorem runDecoded_inSession (r : Decoded) (op : Word) {s : State} (hs : s.status ≠ .unreset) :
    ∃ t, runDecoded r op s = .next t ∧ t.status ≠ .unreset := by
  cases r with
  | instr i => exact exec_inSession i hs
  | noOp => exact ⟨s, rfl, hs⟩
  | unimplemented => exact ⟨_, rfl, nofun⟩

theorem executorStep_inSession {s : State} (hs : s.status ≠ .unreset) :
    ∃ t, executorStep s = .next t ∧ t.status ≠ .unreset := by
  cases hstatus : s.status with
  | unreset => exact absurd hstatus hs
  | faulted e => exact ⟨s, executorStep_faulted hstatus, hs⟩
  | running =>
    by_cases hpc : s.pc.toNat ≤ 0xFFE
    · rw [executorStep_running hstatus hpc]
      exact runDecoded_inSession _ _ hs
    · exact ⟨_, executorStep_fetch_error hstatus hpc, nofun⟩

/-- A tick and a key port answer in every status. -/
theorem perform_answers {e : Event} (h : KeepsSession (.other e)) (s : State) :
    ∃ t, eventState (perform e s) = .next t := by
  rcases h with h | h | h | ⟨k, h | h⟩ <;> cases h <;> exact ⟨_, rfl⟩

theorem perform_keeps {e : Event} (h : KeepsSession (.other e)) {s t : State}
    (ht : eventState (perform e s) = .next t) : t.status = s.status ∧ t.agenda = s.agenda := by
  rcases perform_cases ht with ⟨rfl, -⟩ | ⟨program, rfl, -⟩ | ⟨-, dt, st, key, dirty, rfl⟩
  · simp [KeepsSession] at h
  · simp [KeepsSession] at h
  · exact ⟨rfl, rfl⟩

theorem step_inSession {s : State} (hs : s.status ≠ .unreset) (hturn : KeepsSession s.agenda.head) :
    ∃ t, step s = .next t ∧ t.status ≠ .unreset ∧ t.agenda = s.agenda.drop := by
  cases hhead : s.agenda.head with
  | executor =>
    obtain ⟨t, ht, hstatus⟩ := executorStep_inSession (s := s.dropTurn) hs
    obtain ⟨-, -, hagenda⟩ := executorStep_keeps ht
    exact ⟨t, (step_executor (turn_eq_none_of_head hhead)).trans ht, hstatus, hagenda⟩
  | other e =>
    rw [hhead] at hturn
    obtain ⟨t, ht⟩ := perform_answers hturn s.dropTurn
    obtain ⟨hstatus, hagenda⟩ := perform_keeps hturn ht
    exact ⟨t, (step_event (turn_eq_of_head hhead)).trans ht, hstatus ▸ hs, hagenda⟩
  | free =>
    rw [hhead] at hturn
    simp [KeepsSession] at hturn

/-! ### The run through the cycle -/

/-- The state after one transition, the state itself where there is none. -/
def State.after (s : State) : State :=
  match step s with
  | .next t => t
  | .fault _ => s
  | .refused _ => s

/-- The endless run from a state. -/
def State.run (s : State) : Nat → State
  | 0 => s
  | n + 1 => (s.run n).after

theorem after_eq {s t : State} (h : step s = .next t) : s.after = t := by
  simp only [State.after, h]

/-- In session, `n` turns into the cycle: the entries left of this pass are those from `n mod length` on, and none at its
start. -/
structure OnCycle (turns : List Turn) (n : Nat) (s : State) : Prop where
  status : s.status ≠ .unreset
  cycle : s.agenda.cycle = turns
  next : s.agenda.next = if n % turns.length = 0 then [] else turns.drop (n % turns.length)

/-- The turn that comes next is entry `n mod length` of the cycle, and the entries after it are left. -/
theorem OnCycle.head_left {turns : List Turn} {n : Nat} {s : State} (h : OnCycle turns n s) (hne : turns ≠ []) :
    turns[n % turns.length]? = some s.agenda.head ∧ s.agenda.left = turns.drop (n % turns.length + 1) := by
  have hlt : n % turns.length < turns.length := Nat.mod_lt _ (List.length_pos_iff.2 hne)
  have hnext := h.next
  unfold Agenda.head Agenda.left
  by_cases hzero : n % turns.length = 0
  · rw [if_pos hzero] at hnext
    obtain ⟨t, rest, rfl⟩ := List.exists_cons_of_ne_nil hne
    rw [hnext, h.cycle, hzero]
    exact ⟨rfl, rfl⟩
  · rw [if_neg hzero, List.drop_eq_getElem_cons hlt] at hnext
    rw [hnext]
    exact ⟨List.getElem?_eq_getElem hlt, rfl⟩

/-- Taking a turn goes one entry on, or back to the start of the cycle. -/
theorem drop_succ_mod {turns : List Turn} (hne : turns ≠ []) (n : Nat) :
    turns.drop (n % turns.length + 1)
      = if (n + 1) % turns.length = 0 then [] else turns.drop ((n + 1) % turns.length) := by
  have hlt : n % turns.length < turns.length := Nat.mod_lt _ (List.length_pos_iff.2 hne)
  by_cases hlast : n % turns.length + 1 = turns.length
  · have hstart : (n + 1) % turns.length = 0 := by rw [← Nat.mod_add_mod, hlast, Nat.mod_self]
    rw [hstart, if_pos rfl, hlast, List.drop_length]
  · have hsucc : (n + 1) % turns.length = n % turns.length + 1 := by
      rw [← Nat.mod_add_mod, Nat.mod_eq_of_lt (Nat.lt_of_le_of_ne hlt hlast)]
    rw [hsucc, if_neg (Nat.succ_ne_zero _)]

theorem OnCycle.succ {turns : List Turn} {n : Nat} {s : State} (h : OnCycle turns n s) (hne : turns ≠ [])
    (hturns : ∀ t ∈ turns, KeepsSession t) : step s = .next s.after ∧ OnCycle turns (n + 1) s.after := by
  obtain ⟨hhead, hleft⟩ := h.head_left hne
  obtain ⟨t, ht, hstatus, hagenda⟩ := step_inSession h.status (hturns _ (List.mem_of_getElem? hhead))
  rw [after_eq ht]
  refine ⟨ht, hstatus, ?_, ?_⟩
  · rw [hagenda, drop_cycle, h.cycle]
  · rw [hagenda, drop_next, hleft, drop_succ_mod hne]

theorem run_onCycle {turns : List Turn} {s : State} (h : OnCycle turns 0 s) (hne : turns ≠ [])
    (hturns : ∀ t ∈ turns, KeepsSession t) (n : Nat) : OnCycle turns n (s.run n) := by
  induction n with
  | zero => exact h
  | succ n ih => exact (ih.succ hne hturns).2

/-- Settles O60: the run that goes through the cycle over and over never stops, and entry `j` comes up at every turn
`length * n + j`. -/
theorem fairRunsExist : Obligations.FairRunsExist := by
  intro s turns hs hnext hcycle hne hturns
  have hstart : OnCycle turns 0 s := ⟨hs, hcycle, by rw [Nat.zero_mod, if_pos rfl, hnext]⟩
  have hrun (n : Nat) : OnCycle turns n (s.run n) := run_onCycle hstart hne hturns n
  have hhead (n : Nat) : turns[n % turns.length]? = some (s.run n).agenda.head := ((hrun n).head_left hne).1
  refine ⟨s.run, rfl, fun n => ((hrun n).succ hne hturns).1, hhead, fun t ht n => ?_⟩
  obtain ⟨j, hj, hget⟩ := List.getElem_of_mem ht
  refine ⟨turns.length * n + j, ?_, ?_⟩
  · exact Nat.le_trans (Nat.le_mul_of_pos_left n (Nat.zero_lt_of_lt hj)) (Nat.le_add_right _ _)
  · have hcomes := hhead (turns.length * n + j)
    rw [Nat.mul_add_mod, Nat.mod_eq_of_lt hj, List.getElem?_eq_getElem hj, hget] at hcomes
    exact (Option.some.inj hcomes).symm

end Sys2Proof.Machine
end
